-- ==== Sys2Proof/Word.lean ====
section
/-! DEFINITION. The byte and the byte sequence (spec/00_scope.md section 5, Notation). -/

namespace Sys2Proof

/-- A byte: 8 bits, bit 7 the most significant (00_scope.md, Notation). -/
abbrev Byte := BitVec 8

/-- `Bytes`, a finite sequence of bytes, the first byte on the wire first (00_scope.md, Notation). -/
abbrev Bytes := List Byte

end Sys2Proof
end

