-- ==== Sys2Proof/Config.lean ====
section
/-! DEFINITION. The sizes the source fixes, the configuration record `Cfg`, its well-formedness, the reference
configuration, the types of the collaborators' answers, and the free values (spec/00_scope.md section 4,
spec/20_memory.md section 7). -/

namespace Sys2Proof

/-! ## Sizes (R6) -/

/-- `MAGIC_LEN` (R6). -/
def magicLen : Nat := 6
/-- `HDR_LEN`: magic, version, type and length (R6). -/
def hdrLen : Nat := 9
/-- `CSUM_LEN` (R6). -/
def csumLen : Nat := 1
/-- `LEN_CEILING`, the largest inbound payload length accepted (R6, R142; conflict C10). -/
def lenCeiling : Nat := 200
/-- `PAYLOAD_MAX`, the largest payload the encoder sends (R6, R221). -/
def payloadMax : Nat := 255
/-- `STR_MAX`, the length to which a string is cut (R6, R87). -/
def strMax : Nat := 255
/-- `CONNECT_ATTEMPTS` (R6, R60). -/
def connectAttempts : Nat := 20
/-- `TICK_INTERVAL` in seconds; a record of the source's figure that no rule reads (R6, R259, R296). -/
def tickIntervalSeconds : Nat := 5
/-- `ACC_CAP`, the largest size the accumulator reaches (R6). -/
def accCap : Nat := hdrLen + lenCeiling + csumLen

/-! ## The configuration (R7 to R14) -/

/-- `Cfg`: the named parameters the source leaves without a value (R7 to R13). -/
structure Cfg where
  /-- `MAGIC` (R7). -/
  magic : Bytes
  /-- `PROTO_VERSION` (R8). -/
  protoVersion : Byte
  /-- `TYPE_CURRENT_STATE` (R9). -/
  typeCurrentState : Byte
  /-- `TYPE_ERROR_STATE` (R9). -/
  typeErrorState : Byte
  /-- `TYPE_RPC` (R9). -/
  typeRpc : Byte
  /-- `TYPE_RPC_RESULT` (R9). -/
  typeRpcResult : Byte
  /-- `CMD_SEND_WIFI` (R10). -/
  cmdSendWifi : Byte
  /-- `CMD_REQUEST_STATE` (R10). -/
  cmdRequestState : Byte
  /-- `CMD_REQUEST_INFO` (R10). -/
  cmdRequestInfo : Byte
  /-- `CMD_REQUEST_SCAN` (R10). -/
  cmdRequestScan : Byte
  /-- `ST_READY` (R11). -/
  stReady : Byte
  /-- `ST_PROVISIONING` (R11). -/
  stProvisioning : Byte
  /-- `ST_PROVISIONED` (R11). -/
  stProvisioned : Byte
  /-- `ERR_NONE` (R11). -/
  errNone : Byte
  /-- `ERR_INVALID_RPC` (R11). -/
  errInvalidRpc : Byte
  /-- `ERR_UNKNOWN_RPC` (R11). -/
  errUnknownRpc : Byte
  /-- `ERR_UNABLE_TO_CONNECT` (R11). -/
  errUnableToConnect : Byte
  /-- `ERR_UNKNOWN` (R11). -/
  errUnknown : Byte
  /-- `FW_NAME` (R12). -/
  fwName : Bytes
  /-- `FW_VERSION` (R12). -/
  fwVersion : Bytes
  /-- `CHIP_FAMILY` (R12). -/
  chipFamily : Bytes
  /-- `DEVICE_NAME` (R12). -/
  deviceName : Bytes
  /-- `RETRY_DELAY` (R13), an argument of `NET.connect` only; the source gives no unit. -/
  retryDelay : Nat
  /-- `CRED_KEY_SSID` (R13). -/
  credKeySsid : Bytes
  /-- `CRED_KEY_PASSWORD` (R13). -/
  credKeyPassword : Bytes
  deriving DecidableEq, Repr

/-- The four type codes (R9). -/
def Cfg.typeCodes (c : Cfg) : Bytes := [c.typeCurrentState, c.typeErrorState, c.typeRpc, c.typeRpcResult]
/-- The four command ids (R10). -/
def Cfg.cmdIds (c : Cfg) : Bytes := [c.cmdSendWifi, c.cmdRequestState, c.cmdRequestInfo, c.cmdRequestScan]
/-- The three device-state codes (R11). -/
def Cfg.stateCodes (c : Cfg) : Bytes := [c.stReady, c.stProvisioning, c.stProvisioned]
/-- The five error codes (R11). -/
def Cfg.errCodes (c : Cfg) : Bytes :=
  [c.errNone, c.errInvalidRpc, c.errUnknownRpc, c.errUnableToConnect, c.errUnknown]

/-- The byte the source's Scenario 4 fixes as no command id (R10). -/
def reservedCmd : Byte := 0x99

/-- `WF(Cfg)` (R14). -/
def Cfg.wf (c : Cfg) : Bool :=
  decide (c.magic.length = magicLen) && decide c.typeCodes.Nodup && decide c.cmdIds.Nodup
    && decide (reservedCmd ∉ c.cmdIds) && decide c.stateCodes.Nodup && decide c.errCodes.Nodup
    && decide (lenCeiling ≤ payloadMax)

/-- `Cfg_ref`, the reference configuration of the hexadecimal examples (R7 to R12). PRESUMED: the code values are the
public Improv protocol's (spec/93 G1 to G6); DESIGN CHOICE: the identification strings are the spec's placeholders, and
the retry delay and the credential keys, for which the spec gives not even a reference value, are this model's
(log entry 2). No statement about every state rests on a value of it. -/
def Cfg.ref : Cfg where
  magic := [0x49, 0x4D, 0x50, 0x52, 0x4F, 0x56]
  protoVersion := 0x01
  typeCurrentState := 0x01
  typeErrorState := 0x02
  typeRpc := 0x03
  typeRpcResult := 0x04
  cmdSendWifi := 0x01
  cmdRequestState := 0x02
  cmdRequestInfo := 0x03
  cmdRequestScan := 0x04
  stReady := 0x02
  stProvisioning := 0x03
  stProvisioned := 0x04
  errNone := 0x00
  errInvalidRpc := 0x01
  errUnknownRpc := 0x02
  errUnableToConnect := 0x03
  errUnknown := 0xFF
  fwName := [0x66, 0x77]
  fwVersion := [0x31]
  chipFamily := [0x63, 0x68, 0x69, 0x70]
  deviceName := [0x64, 0x65, 0x76]
  retryDelay := 0
  credKeySsid := [0x73, 0x73, 0x69, 0x64]
  credKeyPassword := [0x70, 0x77]

/-! ## Answers of the collaborators (R58 to R61) -/

/-- The answer of `NET.status()` (R58). -/
structure NetStatus where
  connected : Bool
  ip : Bytes
  ssid : Bytes
  rssi : Int
  deriving DecidableEq, Repr, Inhabited

/-- One entry of the answer of `NET.scan()` (R59). -/
structure ScanEntry where
  ssid : Bytes
  rssi : Int
  isOpen : Bool
  deriving DecidableEq, Repr, Inhabited

/-- The answer of `NET.connect(..)`; a time-out is a failure (R60, U15). -/
inductive ConnectResult where
  | success
  | failure
  deriving DecidableEq, Repr, Inhabited

/-! ## Free values

What a collaborator answers when the environment has scripted no answer: nothing constrains it (R58 to R61: the answer
is a draw, "the model is stated for every answer the interface type allows"; log entry 3). -/

/-- The free answer of `NET.status()` number `n` (R58, U8, U11). -/
opaque Config.freeStatus : Nat → NetStatus
/-- The free answer of `NET.scan()` number `n` (R59, U10). -/
opaque Config.freeScan : Nat → List ScanEntry
/-- The free answer of `NET.connect(..)` number `n` (R60, U15). -/
opaque Config.freeConnect : Nat → ConnectResult
/-- The free answer of `CRED.get(k)` number `n` (R61, U12). -/
opaque Config.freeCred : Nat → Option Bytes

end Sys2Proof
end

