-- ==== Sys2Proof/Syntax.lean ====
section
/-! DEFINITION. The decoded frame, the two enumerations that travel on the wire, and the instructions: one constructor
per row of `opcode_table.json` (spec/30_encoding.md R99). -/

namespace Sys2Proof

/-- The values of `DEVSTATE` (R25). -/
inductive DevState where
  | ready
  | provisioning
  | provisioned
  deriving DecidableEq, Repr

/-- The values of `ERRSTATE` (R26). -/
inductive ErrState where
  | none
  | invalidRpc
  | unknownRpc
  | unableToConnect
  | unknown
  deriving DecidableEq, Repr

/-- `Frame {version, type, payload}`, what the decoder hands to the dispatcher (R28, R146). The type is a raw byte
(conflict C9). -/
structure Frame where
  version : Byte
  type : Byte
  payload : Bytes
  deriving DecidableEq, Repr

/-- The instructions: wire frame kinds, in the table's order (R99). Inbound kinds carry every byte of the frame that
their row leaves open; outbound kinds carry the operand of the notation of R98. -/
inductive Instr where
  /-- `RX.CURRENT_STATE` (R160). -/
  | rxCurrentState (version : Byte) (payload : Bytes)
  /-- `RX.ERROR_STATE` (R160). -/
  | rxErrorState (version : Byte) (payload : Bytes)
  /-- `RX.RPC_RESULT` (R160). -/
  | rxRpcResult (version : Byte) (payload : Bytes)
  /-- `RPC.Empty` (R162). -/
  | rpcEmpty
  /-- `RPC.SendWiFi` (R167, R168); `args` is the payload after the command id (R85). -/
  | rpcSendWiFi (args : Bytes)
  /-- `RPC.RequestState` (R164); `args` is ignored (R86). -/
  | rpcRequestState (args : Bytes)
  /-- `RPC.RequestInfo` (R165); `args` is ignored (R86). -/
  | rpcRequestInfo (args : Bytes)
  /-- `RPC.RequestScan` (R166); `args` is ignored (R86). -/
  | rpcRequestScan (args : Bytes)
  /-- `RPC.Unknown` (R169); `args` is ignored. -/
  | rpcUnknown (cmd : Byte) (args : Bytes)
  /-- `RPC.ForeignVersion` (R161). -/
  | rpcForeignVersion (version : Byte) (payload : Bytes)
  /-- `RX.UnassignedType` (R160). -/
  | rxUnassignedType (version : Byte) (type : Byte) (payload : Bytes)
  /-- `TX.CURRENT_STATE` (R190). -/
  | txCurrentState (state : DevState)
  /-- `TX.ERROR_STATE` (R191). -/
  | txErrorState (error : ErrState)
  /-- `TX.RPC_RESULT` (R92). -/
  | txRpcResult (strings : List Bytes)
  deriving DecidableEq, Repr

/-- The row's `direction` member: whether the instruction is one the host can send (R99). -/
def Instr.inbound : Instr → Bool
  | .rxCurrentState _ _ => true
  | .rxErrorState _ _ => true
  | .rxRpcResult _ _ => true
  | .rpcEmpty => true
  | .rpcSendWiFi _ => true
  | .rpcRequestState _ => true
  | .rpcRequestInfo _ => true
  | .rpcRequestScan _ => true
  | .rpcUnknown _ _ => true
  | .rpcForeignVersion _ _ => true
  | .rxUnassignedType _ _ _ => true
  | .txCurrentState _ => false
  | .txErrorState _ => false
  | .txRpcResult _ => false

end Sys2Proof
end

