-- ==== Sys2Proof/Machine/Flags.lean ====
section
/-! DEFINITION. The block has no status flags (spec/10_state.md section 4). What stands here is the one computation whose
outcome is tested, the checksum (R83, R144, R222), and the wire codes of the two status registers (R25, R26, R90, R91). -/

namespace Sys2Proof

/-- `sum8(s)`: the sum of the bytes as naturals, reduced modulo 256 (00_scope.md, Notation; R83, R230). -/
def sum8 (s : Bytes) : Byte := BitVec.ofNat 8 (s.map BitVec.toNat).sum

/-- `code` of a value of `DEVSTATE` (R190). -/
def DevState.code (c : Cfg) : DevState → Byte
  | .ready => c.stReady
  | .provisioning => c.stProvisioning
  | .provisioned => c.stProvisioned

/-- `code` of a value of `ERRSTATE` (R191). -/
def ErrState.code (c : Cfg) : ErrState → Byte
  | .none => c.errNone
  | .invalidRpc => c.errInvalidRpc
  | .unknownRpc => c.errUnknownRpc
  | .unableToConnect => c.errUnableToConnect
  | .unknown => c.errUnknown

end Sys2Proof
end

