-- ==== Sys2Proof/Machine/Operands.lean ====
section
/-! DEFINITION. Operand forms: buffer access, length-prefixed strings and string lists (spec/30_encoding.md R85 to R89),
the literal texts (R93, R94, R199), decimal text (R172), and the parsing of the `SendWiFi` arguments (R167). -/

namespace Sys2Proof

/-- `s[i]` (00_scope.md, Notation). Every use stands behind a length test that makes `i < |s|` (R232), so the default is
never read from a state the rules reach (log entry 9). -/
def byteAt (s : Bytes) (i : Nat) : Byte := s.getD i 0

/-- `s[a..b)` (00_scope.md, Notation). -/
def slice (s : Bytes) (a b : Nat) : Bytes := (s.drop a).take (b - a)

/-- `lp(s)`: the length byte, then the bytes, cut to 255 (R87). -/
def lenPrefixed (s : Bytes) : Bytes := BitVec.ofNat 8 (min s.length strMax) :: s.take strMax

/-- `sl(L)`: the concatenation of the `lp` of the elements (R88). -/
def sl (l : List Bytes) : Bytes := l.flatMap lenPrefixed

/-- The number of payload bytes of a string list, `1 + min(|s|, 255)` for each string (R221). -/
def slSize : List Bytes → Nat
  | [] => 0
  | s :: l => 1 + min s.length strMax + slSize l

/-- The seven bytes of `"http://"` (R94). -/
def httpText : Bytes := [0x68, 0x74, 0x74, 0x70, 0x3A, 0x2F, 0x2F]
/-- `"YES"` (R93; its code bytes: log entry 11). -/
def yesText : Bytes := [0x59, 0x45, 0x53]
/-- `"NO"` (R93). -/
def noText : Bytes := [0x4E, 0x4F]
/-- `"WiFi: "` (R199). -/
def wifiText : Bytes := [0x57, 0x69, 0x46, 0x69, 0x3A, 0x20]
/-- `" ("` (R199). -/
def openText : Bytes := [0x20, 0x28]
/-- `")"` (R199). -/
def closeText : Bytes := [0x29]
/-- `"Not Connected"`, the end of the text of R199 when the network is down. -/
def notConnectedText : Bytes := [0x4E, 0x6F, 0x74, 0x20, 0x43, 0x6F, 0x6E, 0x6E, 0x65, 0x63, 0x74, 0x65, 0x64]

/-- `open_text`: `"YES"` iff the network is open (R93). -/
def yesNo (isOpen : Bool) : Bytes := if isOpen then yesText else noText

/-- The one-element list of the URL result (R94). -/
def urlStrings (ip : Bytes) : List Bytes := [httpText ++ ip]
/-- The four-element list of the info result (R95). -/
def infoStrings (c : Cfg) : List Bytes := [c.fwName, c.fwVersion, c.chipFamily, c.deviceName]

/-- The ASCII code of a decimal digit. -/
def digitByte (n : Nat) : Byte := BitVec.ofNat 8 (0x30 + n % 10)

/-- The decimal digits of `n`, most significant first, on `fuel >= n`. -/
def decDigits : Nat → Nat → Bytes
  | 0, n => [digitByte n]
  | fuel + 1, n => if n < 10 then [digitByte n] else decDigits fuel (n / 10) ++ [digitByte n]

/-- `dec(n)` for `n >= 0` (R172). -/
def decNat (n : Nat) : Bytes := decDigits n n

/-- `dec(n)`, the decimal text of an integer (R172). -/
def dec : Int → Bytes
  | .ofNat n => decNat n
  | .negSucc n => 0x2D :: decNat (n + 1)

/-- The three strings of a scan entry (R93). -/
def scanStrings (n : ScanEntry) : List Bytes := [n.ssid, dec n.rssi, yesNo n.isOpen]

/-- The text `statusText` returns for a status answer (R199). -/
def statusLine (st : NetStatus) : Bytes :=
  if st.connected then wifiText ++ st.ssid ++ openText ++ st.ip ++ closeText else wifiText ++ notConnectedText

/-- The operands of `SendWiFi` (R167). -/
structure WifiArgs where
  ssid : Bytes
  password : Bytes
  deriving DecidableEq, Repr

/-- `SendWiFi` argument parsing with its bounds checks, in the order that guards every read (R167, R232); `none` is
`MalformedPayload`. Sizes are naturals, not bytes (R230). Bytes after the password are ignored. -/
def parseWifi (args : Bytes) : Option WifiArgs :=
  if args.length < 1 then none
  else
    let ssidLen := (byteAt args 0).toNat
    if args.length < 1 + ssidLen + 1 then none
    else
      let passwordLen := (byteAt args (1 + ssidLen)).toNat
      if args.length < 1 + ssidLen + 1 + passwordLen then none
      else some
        { ssid := slice args 1 (1 + ssidLen)
          password := slice args (2 + ssidLen) (2 + ssidLen + passwordLen) }

end Sys2Proof
end

