-- ==== Sys2Proof/WellFormed.lean ====
section
/-! DEFINITION. Which instructions are well-formed under a configuration: the constraints of the rows of
`opcode_table.json` and the sizes of format `F` (spec/30_encoding.md R81, R99). -/

namespace Sys2Proof

/-- The digits of a natural number with no leading zero (R172). -/
def isNatText (t : Bytes) : Bool :=
  !t.isEmpty && t.all (fun b => decide (0x30 ≤ b.toNat) && decide (b.toNat ≤ 0x39))
    && (t.length == 1 || t.headD 0 != 0x30)

/-- A text of the form `dec(n)` (R172). -/
def isDecText : Bytes → Bool
  | 0x2D :: t => isNatText t && t != [0x30]
  | t => isNatText t

/-- The four shapes an `RPC_RESULT` list has: a URL, the info strings, a scan entry, or the empty list (R92 to R95). -/
def resultShape (c : Cfg) : List Bytes → Bool
  | [] => true
  | [url] => httpText.isPrefixOf url
  | [_, rssi, text] => isDecText rssi && (text == yesText || text == noText)
  | [a, b, x, d] => [a, b, x, d] == infoStrings c
  | _ => false

/-- The largest argument block of an accepted RPC frame: the ceiling less the command id (R85, R142). -/
def argsMax : Nat := lenCeiling - 1

/-- An instruction is well-formed under `c`: inbound, what an accepted frame of its row can hold; outbound, what the
rules emit (the `symbolic` and `constraints` members of the table's rows). -/
def Instr.wf (c : Cfg) : Instr → Bool
  | .rxCurrentState _ payload => decide (payload.length ≤ lenCeiling)
  | .rxErrorState _ payload => decide (payload.length ≤ lenCeiling)
  | .rxRpcResult _ payload => decide (payload.length ≤ lenCeiling)
  | .rpcEmpty => true
  | .rpcSendWiFi args => decide (args.length ≤ argsMax)
  | .rpcRequestState args => decide (args.length ≤ argsMax)
  | .rpcRequestInfo args => decide (args.length ≤ argsMax)
  | .rpcRequestScan args => decide (args.length ≤ argsMax)
  | .rpcUnknown cmd args => decide (cmd ∉ c.cmdIds) && decide (args.length ≤ argsMax)
  | .rpcForeignVersion version payload => decide (version ≠ c.protoVersion) && decide (payload.length ≤ lenCeiling)
  | .rxUnassignedType _ type payload => decide (type ∉ c.typeCodes) && decide (payload.length ≤ lenCeiling)
  | .txCurrentState _ => true
  | .txErrorState error => decide (error = .unknownRpc ∨ error = .unableToConnect)
  | .txRpcResult strings => resultShape c strings && decide (slSize strings ≤ payloadMax)

end Sys2Proof
end

