-- ==== Sys2Proof/Decode.lean ====
section
/-! DEFINITION. The frame decoder (spec/41_frame_decoder.md R140 to R149), the mux that names the instruction
(spec/42_command_dispatcher.md R160 to R163; spec/30_encoding.md R99), the encoder (spec/44_frame_encoder.md R220), and
the reading of a word of the opcode table. -/

namespace Sys2Proof

/-! ## Decoding -/

/-- Why a buffer yields no frame, in the order of the checks (R254). `gate` and `incomplete` are waits, the other three
are conditions of R240. -/
inductive Reject where
  /-- Fewer than 9 bytes are buffered (R121). -/
  | gate
  /-- The first six bytes are not `MAGIC` (R122). -/
  | framingError
  /-- The length byte exceeds the ceiling (R142). -/
  | lengthTooLarge
  /-- Fewer bytes than `expected_size` are buffered (R143). -/
  | incomplete
  /-- The trailing byte is not `sum8` of the others (R144, R145). -/
  | checksumMismatch
  deriving DecidableEq, Repr

/-- `len`, the declared length (R141). -/
def declaredLen (acc : Bytes) : Nat := (byteAt acc 8).toNat

/-- `expected_size` (R143). -/
def expectedSize (acc : Bytes) : Nat := hdrLen + declaredLen acc + csumLen

/-- The gate, the alignment test and the decoder's steps 1 to 5 on a buffer, in their order (R121, R122, R141 to R146). -/
def checkFrame (c : Cfg) (acc : Bytes) : Except Reject Frame :=
  if acc.length < hdrLen then .error .gate
  else if slice acc 0 magicLen ≠ c.magic then .error .framingError
  else if lenCeiling < declaredLen acc then .error .lengthTooLarge
  else if acc.length < expectedSize acc then .error .incomplete
  else if sum8 (slice acc 0 (expectedSize acc - 1)) ≠ byteAt acc (expectedSize acc - 1) then .error .checksumMismatch
  else .ok
    { version := byteAt acc 6
      type := byteAt acc 7
      payload := slice acc hdrLen (hdrLen + declaredLen acc) }

/-- Check 4, the command mux on a non-empty payload `cmd :: args` (R85, R163). -/
def muxCommand (c : Cfg) (cmd : Byte) (args : Bytes) : Instr :=
  if cmd = c.cmdRequestState then .rpcRequestState args
  else if cmd = c.cmdRequestInfo then .rpcRequestInfo args
  else if cmd = c.cmdRequestScan then .rpcRequestScan args
  else if cmd = c.cmdSendWifi then .rpcSendWiFi args
  else .rpcUnknown cmd args

/-- The row a non-RPC frame matches (R99; all four are `NonRpcFrame`, R160). -/
def muxNonRpc (c : Cfg) (fr : Frame) : Instr :=
  if fr.type = c.typeCurrentState then .rxCurrentState fr.version fr.payload
  else if fr.type = c.typeErrorState then .rxErrorState fr.version fr.payload
  else if fr.type = c.typeRpcResult then .rxRpcResult fr.version fr.payload
  else .rxUnassignedType fr.version fr.type fr.payload

/-- The instruction a decoded frame stands for: the checks of the dispatcher in their order (R160 to R163, R254). -/
def mux (c : Cfg) (fr : Frame) : Instr :=
  if fr.type ≠ c.typeRpc then muxNonRpc c fr
  else if fr.version ≠ c.protoVersion then .rpcForeignVersion fr.version fr.payload
  else
    match fr.payload with
    | [] => .rpcEmpty
    | cmd :: args => muxCommand c cmd args

/-- The decoder, total on any bytes: the instruction of the frame that stands at the front, or why there is none. -/
def decode (c : Cfg) (bytes : Bytes) : Except Reject Instr := (checkFrame c bytes).map (mux c)

/-! ## Encoding -/

/-- The bytes of format `F` before the checksum: `MAGIC ++ [version, type, |payload|] ++ payload` (R81, R220). -/
def frameBody (c : Cfg) (version type : Byte) (payload : Bytes) : Bytes :=
  c.magic ++ [version, type, BitVec.ofNat 8 payload.length] ++ payload

/-- `frame(v, t, p)` (R98): the body and its checksum (R222). -/
def frameBytes (c : Cfg) (version type : Byte) (payload : Bytes) : Bytes :=
  frameBody c version type payload ++ [sum8 (frameBody c version type payload)]

/-- What the encoder builds: nothing for a payload over 255 bytes (R220, R221). -/
def encodeFrame (c : Cfg) (version type : Byte) (payload : Bytes) : Option Bytes :=
  if payloadMax < payload.length then none else some (frameBytes c version type payload)

/-- The frame an instruction is (R98, R99; the rows' `symbolic` members). -/
def Instr.frame (c : Cfg) : Instr → Frame
  | .rxCurrentState version payload => ⟨version, c.typeCurrentState, payload⟩
  | .rxErrorState version payload => ⟨version, c.typeErrorState, payload⟩
  | .rxRpcResult version payload => ⟨version, c.typeRpcResult, payload⟩
  | .rpcEmpty => ⟨c.protoVersion, c.typeRpc, []⟩
  | .rpcSendWiFi args => ⟨c.protoVersion, c.typeRpc, c.cmdSendWifi :: args⟩
  | .rpcRequestState args => ⟨c.protoVersion, c.typeRpc, c.cmdRequestState :: args⟩
  | .rpcRequestInfo args => ⟨c.protoVersion, c.typeRpc, c.cmdRequestInfo :: args⟩
  | .rpcRequestScan args => ⟨c.protoVersion, c.typeRpc, c.cmdRequestScan :: args⟩
  | .rpcUnknown cmd args => ⟨c.protoVersion, c.typeRpc, cmd :: args⟩
  | .rpcForeignVersion version payload => ⟨version, c.typeRpc, payload⟩
  | .rxUnassignedType version type payload => ⟨version, type, payload⟩
  | .txCurrentState state => ⟨c.protoVersion, c.typeCurrentState, [state.code c]⟩
  | .txErrorState error => ⟨c.protoVersion, c.typeErrorState, [error.code c]⟩
  | .txRpcResult strings => ⟨c.protoVersion, c.typeRpcResult, sl strings⟩

/-- The bytes of a frame (R98). -/
def Frame.bytes (c : Cfg) (fr : Frame) : Bytes := frameBytes c fr.version fr.type fr.payload

/-- The encoder of instructions: the wire bytes of a well-formed instruction. -/
def encode (c : Cfg) (i : Instr) : Bytes := (i.frame c).bytes c

/-! ## The rows of the opcode table (R99) -/

/-- The pattern of an inbound row in terms of the configuration (the `symbolic` member, the normative one): what it asks
of the version, the type, the length and the first payload byte. -/
structure RowPattern where
  mnemonic : String
  version : Option Byte
  type : Option Byte
  emptyPayload : Option Bool
  command : Option Byte
  deriving DecidableEq, Repr

/-- A decoded frame matches a row. A frame with an empty payload supplies no first payload byte (R99). -/
def RowPattern.covers (r : RowPattern) (fr : Frame) : Bool :=
  r.version.all (fun v => fr.version == v) && r.type.all (fun t => fr.type == t)
    && r.emptyPayload.all (fun e => fr.payload.isEmpty == e)
    && r.command.all (fun k => fr.payload.head? == some k)

/-- The inbound rows in the table's order (R99). -/
def inboundRows (c : Cfg) : List RowPattern :=
  [ ⟨"RX.CURRENT_STATE", none, some c.typeCurrentState, none, none⟩,
    ⟨"RX.ERROR_STATE", none, some c.typeErrorState, none, none⟩,
    ⟨"RX.RPC_RESULT", none, some c.typeRpcResult, none, none⟩,
    ⟨"RPC.Empty", some c.protoVersion, some c.typeRpc, some true, none⟩,
    ⟨"RPC.SendWiFi", some c.protoVersion, some c.typeRpc, some false, some c.cmdSendWifi⟩,
    ⟨"RPC.RequestState", some c.protoVersion, some c.typeRpc, some false, some c.cmdRequestState⟩,
    ⟨"RPC.RequestInfo", some c.protoVersion, some c.typeRpc, some false, some c.cmdRequestInfo⟩,
    ⟨"RPC.RequestScan", some c.protoVersion, some c.typeRpc, some false, some c.cmdRequestScan⟩,
    ⟨"RPC.Unknown", some c.protoVersion, some c.typeRpc, some false, none⟩,
    ⟨"RPC.ForeignVersion", none, some c.typeRpc, none, none⟩,
    ⟨"RX.UnassignedType", none, none, none, none⟩ ]

/-- The first row that matches: "Rows are tried in the listed order and the first match wins" (R99). -/
def firstRow (c : Cfg) (fr : Frame) : Option String :=
  ((inboundRows c).find? (fun r => r.covers fr)).map RowPattern.mnemonic

/-- The mnemonic of an instruction's row (R99). -/
def Instr.mnemonic : Instr → String
  | .rxCurrentState _ _ => "RX.CURRENT_STATE"
  | .rxErrorState _ _ => "RX.ERROR_STATE"
  | .rxRpcResult _ _ => "RX.RPC_RESULT"
  | .rpcEmpty => "RPC.Empty"
  | .rpcSendWiFi _ => "RPC.SendWiFi"
  | .rpcRequestState _ => "RPC.RequestState"
  | .rpcRequestInfo _ => "RPC.RequestInfo"
  | .rpcRequestScan _ => "RPC.RequestScan"
  | .rpcUnknown _ _ => "RPC.Unknown"
  | .rpcForeignVersion _ _ => "RPC.ForeignVersion"
  | .rxUnassignedType _ _ _ => "RX.UnassignedType"
  | .txCurrentState _ => "TX.CURRENT_STATE"
  | .txErrorState _ => "TX.ERROR_STATE"
  | .txRpcResult _ => "TX.RPC_RESULT"

/-! ## Words of the opcode table

A row of the table covers offsets 0 to 9 of a frame that has already passed the decoder (R99): it fixes no checksum, and
no bit of the payload after its first byte. Log entry 7 says how such a word is completed to a frame. -/

/-- The width of a table word: offsets 0 to 9 (R99). -/
def tableBits : Nat := 80

/-- The bytes of `w`, bits 7..0 first. -/
def wordBytes (nbits w : Nat) : Bytes :=
  (List.range ((nbits + 7) / 8)).map (fun i => BitVec.ofNat 8 (w >>> (8 * i)))

/-- The bytes of a word in wire order: offset 0 in bits 7..0, or, where that does not begin with `MAGIC`, offset 0 in the
top bits, as the table prints its twenty hexadecimal digits (log entry 7). -/
def wireBytes (c : Cfg) (nbits w : Nat) : Bytes :=
  if slice (wordBytes nbits w) 0 magicLen = c.magic then wordBytes nbits w else (wordBytes nbits w).reverse

/-- The payload a table word stands for: the declared length, the first byte at offset 9, zeros after it; a word that
declares no payload and holds a byte at offset 9 has a row that leaves the length open, and is given length 1. -/
def tablePayload (bytes : Bytes) : Bytes :=
  if declaredLen bytes = 0 then (if byteAt bytes 9 = 0 then [] else [byteAt bytes 9])
  else (bytes.drop hdrLen ++ List.replicate (declaredLen bytes) 0).take (declaredLen bytes)

/-- The frame of a word: the word's own bytes, zeros above them, where they are an accepted frame or are not of the table's
width; else the completion of the table word. -/
def tableFrame (c : Cfg) (nbits w : Nat) : Bytes :=
  let bytes := wireBytes c nbits w
  match checkFrame c bytes with
  | .ok _ => bytes
  | .error .checksumMismatch =>
    if nbits = tableBits then frameBytes c (byteAt bytes 6) (byteAt bytes 7) (tablePayload bytes) else bytes
  | .error .incomplete =>
    if nbits = tableBits then frameBytes c (byteAt bytes 6) (byteAt bytes 7) (tablePayload bytes)
    else bytes ++ List.replicate (expectedSize bytes - bytes.length) 0
  | .error .gate => bytes
  | .error .framingError => bytes
  | .error .lengthTooLarge => bytes

/-- What the decoder reads from a word of the opcode table, under the reference configuration the table is written in
(R99; log entries 2 and 7). -/
def decodeTableWord (nbits w : Nat) : Option Instr := (decode Cfg.ref (tableFrame Cfg.ref nbits w)).toOption

end Sys2Proof
end

