-- ==== Sys2Proof/Machine/State.lean ====
section
/-! DEFINITION. The state of the machine as plain data, the trace's events, the environment's pending operations and
scripted answers, the reasons a step can stop, and the state after reset (spec/10_state.md, spec/20_memory.md section 7,
spec/70_reset_and_hazards.md R280). -/

namespace Sys2Proof.Machine

/-- The tags of the log channel `LOGS` (R63). -/
inductive LogTag where
  | lengthTooLarge
  | checksumMismatch
  | encoderOversize
  | stringTruncated
  deriving DecidableEq, Repr

/-- The eleven error conditions (R240). -/
inductive Condition where
  | framingError
  | lengthTooLarge
  | checksumMismatch
  | nonRpcFrame
  | versionMismatch
  | emptyRpc
  | unknownCommand
  | malformedPayload
  | connectionFailed
  | encoderOversize
  | stringTruncated
  deriving DecidableEq, Repr

/-- The externally visible events (R64). -/
inductive Event where
  /-- `Feed(b)`. -/
  | feed (b : Byte)
  /-- `Tick`. -/
  | tick
  /-- `Begin`. -/
  | begun
  /-- `Reset`. -/
  | reset
  /-- `Tx(bytes)`: one `writeBytes` call (R53). -/
  | tx (bytes : Bytes)
  /-- `Log(tag)`. -/
  | log (tag : LogTag)
  /-- `NetStatus -> answer`. -/
  | netStatus (answer : NetStatus)
  /-- `NetScan -> answer`. -/
  | netScan (answer : List ScanEntry)
  /-- `NetConnect(ssid, password, maxAttempts, retryDelay) -> answer`. -/
  | netConnect (ssid password : Bytes) (maxAttempts retryDelay : Nat) (answer : ConnectResult)
  /-- `CredGet(key) -> answer`. -/
  | credGet (key : Bytes) (answer : Option Bytes)
  /-- `CredPut(key, value)`. -/
  | credPut (key value : Bytes)
  /-- `StatusText -> text`. -/
  | statusText (text : Bytes)
  deriving DecidableEq, Repr

/-- The operations the environment can make the block do (R284; INDEX.md). -/
inductive EnvOp where
  | reset
  | begin
  | feed (b : Byte)
  | tick
  | statusText
  deriving DecidableEq, Repr

/-- How many collaborator calls still return (U1, R283): all of them; `n` more, and the one after never returns; or the
call that never returns has been made. The model's own (log entry 4). -/
inductive CallBudget where
  | allReturn
  | left (n : Nat)
  | overrun
  deriving DecidableEq, Repr

/-- The block's own state, "exactly" these three and nothing else (R20, R31): `ACC` with `ACC_LEN` (R21), `DEVSTATE` (R25)
and `ERRSTATE` (R26). -/
structure Block where
  acc : Bytes
  devState : DevState
  errState : ErrState
  deriving DecidableEq, Repr

/-- The environment's part of a run, the model's own and no state of the block: the operations it will issue and the answers
it will give, oldest first, the counter of free answers, and the budget of calls that return (R29, R31; log entries 3, 4
and 5). -/
structure Env where
  schedule : List EnvOp
  statusAnswers : List NetStatus
  scanAnswers : List (List ScanEntry)
  connectAnswers : List ConnectResult
  credAnswers : List (Option Bytes)
  freeDraws : Nat
  callsLeft : CallBudget
  deriving DecidableEq, Repr

/-- Everything a run needs, the argument of the host's `step`: the block's state, which is its parent `Block` and holds no
parameter and no draw (R20, R31); and beside it the histories as one trace (R30, R64), the parameter `Cfg` (R27; log entry
1) and the environment (R29; log entry 3). -/
structure State extends Block where
  trace : List Event
  cfg : Cfg
  env : Env
  deriving DecidableEq, Repr

/-- Why the machine stops. No condition of R240 is one: "Nothing is fatal to the process" (R255). -/
inductive Fault where
  /-- A collaborator call never returns, so the operation in progress never completes (U1, "stuck"). Raised by any
  operation that makes such a call. Safe. -/
  | collaboratorNeverReturns
  deriving DecidableEq, Repr

/-- Why a step has no meaning. -/
inductive Refusal where
  /-- An instruction with no meaning yet, by its mnemonic; raised by `exec` only. Safe. -/
  | notModelled (mnemonic : String)
  /-- The configuration is not well-formed (R14, U6: "refuse"); raised by `step`. Safe. -/
  | illFormedConfig
  deriving DecidableEq, Repr

/-- The environment of the state after reset: nothing scheduled, nothing scripted, every call returns (R283). DESIGN
CHOICE (log entries 3, 4 and 5): the spec leaves all of it to the environment (R281). -/
def Env.initial : Env where
  schedule := []
  statusAnswers := []
  scanAnswers := []
  connectAnswers := []
  credAnswers := []
  freeDraws := 0
  callsLeft := .allReturn

/-- The machine right after reset (R33, R280). The trace holds the `Reset` event alone, so `TXS`, `LOGS` and the call list
are empty (log entry 6); the configuration is `Cfg_ref` (log entry 2). -/
def State.reset : State where
  acc := []
  devState := .ready
  errState := .none
  trace := [.reset]
  cfg := Cfg.ref
  env := Env.initial

end Sys2Proof.Machine
end

