-- ==== Sys2Proof/Machine/Ops.lean ====
section
/-! DEFINITION. The named operations: reading the registers and histories, recording events, calling collaborators,
emitting frames, raising a condition, and the actions of the state machine (spec/20_memory.md, spec/43_state_machine.md,
spec/44_frame_encoder.md, spec/60_exceptions.md). -/

namespace Sys2Proof.Machine

/-! ## Reading the state -/

/-- `ACC_LEN` (R21). -/
def State.accLen (s : State) : Nat := s.acc.length

/-- The decoder phase is `BODY` (else `HUNT`): a function of `ACC_LEN`, no register (R23, R31). -/
def State.inBody (s : State) : Bool := decide (hdrLen ≤ s.accLen)

/-- The bytes of a `writeBytes` call (R53). -/
def Event.txBytes? : Event → Option Bytes
  | .tx bytes => some bytes
  | _ => none

/-- The tag of a log entry (R63). -/
def Event.logTag? : Event → Option LogTag
  | .log tag => some tag
  | _ => none

/-- The collaborator calls of R58 to R61, those the call list holds (R30). -/
def Event.isCall : Event → Bool
  | .netStatus _ => true
  | .netScan _ => true
  | .netConnect _ _ _ _ _ => true
  | .credGet _ _ => true
  | .credPut _ _ => true
  | _ => false

/-- The frames written, one `writeBytes` call each (R53). -/
def State.txFrames (s : State) : List Bytes := s.trace.filterMap Event.txBytes?

/-- `TXS`: the outbound byte stream, everything passed to `writeBytes` in order (R30, R53). -/
def State.txs (s : State) : Bytes := s.txFrames.flatten

/-- `LOGS` (R30, R63). -/
def State.logs (s : State) : List LogTag := s.trace.filterMap Event.logTag?

/-- The list of collaborator calls with their arguments and answers (R30). -/
def State.calls (s : State) : List Event := s.trace.filter Event.isCall

/-! ## Writing the state -/

/-- `ACC <- bytes` (00_scope.md, pseudocode primitives). -/
def State.setAcc (bytes : Bytes) (s : State) : State := { s with acc := bytes }

/-- `DEVSTATE <- d`. -/
def State.setDev (d : DevState) (s : State) : State := { s with devState := d }

/-- `ERRSTATE <- e`. -/
def State.setErr (e : ErrState) (s : State) : State := { s with errState := e }

/-- Append an event to the trace (R64). -/
def State.record (e : Event) (s : State) : State := { s with trace := s.trace ++ [e] }

/-- `LOG(tag)` (R63). -/
def State.log (tag : LogTag) (s : State) : State := s.record (.log tag)

/-! ## Calling a collaborator (R58 to R62) -/

/-- One more call has been made (U1; log entry 4). -/
def CallBudget.spend : CallBudget → CallBudget
  | .allReturn => .allReturn
  | .left 0 => .overrun
  | .left (n + 1) => .left n
  | .overrun => .overrun

/-- A call enters the trace with its answer and spends one call of the budget. -/
def State.call (e : Event) (s : State) : State :=
  { s with trace := s.trace ++ [e], env := { s.env with callsLeft := s.env.callsLeft.spend } }

/-- `TX(s)`: one `writeBytes` call (R53). -/
def State.transmit (bytes : Bytes) (s : State) : State := s.call (.tx bytes)

/-- The answer the next `NET.status()` gets: the first scripted one, else a free one (R58; log entry 3). -/
def State.nextStatus (s : State) : NetStatus :=
  match s.env.statusAnswers with
  | [] => Config.freeStatus s.env.freeDraws
  | answer :: _ => answer

/-- A `NET.status()` answer has been used. -/
def Env.popStatus (v : Env) : Env :=
  match v.statusAnswers with
  | [] => { v with freeDraws := v.freeDraws + 1 }
  | _ :: rest => { v with statusAnswers := rest }

/-- `NET.status()`: the state after the call; its answer is `nextStatus` (R58). -/
def State.askStatus (s : State) : State :=
  State.call (.netStatus s.nextStatus) { s with env := s.env.popStatus }

/-- The answer the next `NET.scan()` gets (R59; log entry 3). -/
def State.nextScan (s : State) : List ScanEntry :=
  match s.env.scanAnswers with
  | [] => Config.freeScan s.env.freeDraws
  | answer :: _ => answer

/-- A `NET.scan()` answer has been used. -/
def Env.popScan (v : Env) : Env :=
  match v.scanAnswers with
  | [] => { v with freeDraws := v.freeDraws + 1 }
  | _ :: rest => { v with scanAnswers := rest }

/-- `NET.scan()`: the state after the call; its answer is `nextScan` (R59). -/
def State.askScan (s : State) : State :=
  State.call (.netScan s.nextScan) { s with env := s.env.popScan }

/-- The answer the next `NET.connect(..)` gets (R60; log entry 3). -/
def State.nextConnect (s : State) : ConnectResult :=
  match s.env.connectAnswers with
  | [] => Config.freeConnect s.env.freeDraws
  | answer :: _ => answer

/-- A `NET.connect(..)` answer has been used. -/
def Env.popConnect (v : Env) : Env :=
  match v.connectAnswers with
  | [] => { v with freeDraws := v.freeDraws + 1 }
  | _ :: rest => { v with connectAnswers := rest }

/-- `NET.connect(ssid, password, CONNECT_ATTEMPTS, RETRY_DELAY)`: the state after the call; its answer is `nextConnect`
(R60). -/
def State.askConnect (ssid password : Bytes) (s : State) : State :=
  State.call (.netConnect ssid password connectAttempts s.cfg.retryDelay s.nextConnect)
    { s with env := s.env.popConnect }

/-- The answer the next `CRED.get(k)` gets (R61; log entry 3). -/
def State.nextCred (s : State) : Option Bytes :=
  match s.env.credAnswers with
  | [] => Config.freeCred s.env.freeDraws
  | answer :: _ => answer

/-- A `CRED.get(k)` answer has been used. -/
def Env.popCred (v : Env) : Env :=
  match v.credAnswers with
  | [] => { v with freeDraws := v.freeDraws + 1 }
  | _ :: rest => { v with credAnswers := rest }

/-- `CRED.get(key)`: the state after the call; its answer is `nextCred` (R61). -/
def State.askCred (key : Bytes) (s : State) : State :=
  State.call (.credGet key s.nextCred) { s with env := s.env.popCred }

/-- `CRED.put(key, value)` (R61, U12). -/
def State.credPut (key value : Bytes) (s : State) : State := s.call (.credPut key value)

/-- The end of an operation: it has completed, unless a call it made never returned (U1; log entry 4). -/
def settle (s : State) : Host.Outcome State Fault Refusal :=
  match s.env.callsLeft with
  | .allReturn => .next s
  | .left _ => .next s
  | .overrun => .fault .collaboratorNeverReturns

/-- An operation that calls collaborators, run to its end (R55, R231). Where every call returns it completes (R283). -/
def complete (op : State → State) (s : State) : Host.Outcome State Fault Refusal :=
  match s.env.callsLeft with
  | .allReturn => .next (op s)
  | .left _ => settle (op s)
  | .overrun => settle (op s)

/-! ## Emitting frames (Unit 5) -/

/-- `EncoderOversize`: logged, the caller goes on (R221, R250). -/
def raiseOversize (s : State) : State := s.log .encoderOversize

/-- `StringTruncated`: logged, the cut string is used (R87, R251). -/
def raiseTruncated (s : State) : State := s.log .stringTruncated

/-- `emit(type, payload)`: the encoder with version `PROTO_VERSION` (R220, R221, R223). -/
def emit (type : Byte) (payload : Bytes) (s : State) : State :=
  match encodeFrame s.cfg s.cfg.protoVersion type payload with
  | none => raiseOversize s
  | some bytes => s.transmit bytes

/-- `StringTruncated` once for each string over 255 bytes, in order (R251). -/
def warnTruncated : List Bytes → State → State
  | [], s => s
  | str :: strings, s => warnTruncated strings (if strMax < str.length then raiseTruncated s else s)

/-- `emit(TYPE_RPC_RESULT, sl(L))`: the warnings of the string-list builder come before the encoder (R92, R251). -/
def emitResult (strings : List Bytes) (s : State) : State :=
  let s1 := warnTruncated strings s
  emit s1.cfg.typeRpcResult (sl strings) s1

/-- `CURRENT_STATE(d)` is emitted (R98, R190). -/
def emitCurrentState (d : DevState) (s : State) : State := emit s.cfg.typeCurrentState [d.code s.cfg] s

/-- `broadcast()` (R190). -/
def broadcast (s : State) : State := emitCurrentState s.devState s

/-- `set_error(e)`: one action writes `ERRSTATE` and sends the frame (R191). -/
def setError (e : ErrState) (s : State) : State :=
  let s1 := s.setErr e
  emit s1.cfg.typeErrorState [e.code s1.cfg] s1

/-! ## Raising a condition (R240 to R251) -/

/-- The handling of a condition, in line: nothing is saved and there is no handler (R255, R257). -/
def raise (x : Condition) (s : State) : State :=
  match x with
  | .framingError => s.setAcc (s.acc.drop 1)
  | .lengthTooLarge => (s.log .lengthTooLarge).setAcc []
  | .checksumMismatch => (s.log .checksumMismatch).setAcc []
  | .nonRpcFrame => s
  | .versionMismatch => s
  | .emptyRpc => s
  | .unknownCommand => setError .unknownRpc s
  | .malformedPayload => s
  | .connectionFailed => setError .unableToConnect (broadcast (s.setDev .ready))
  | .encoderOversize => raiseOversize s
  | .stringTruncated => raiseTruncated s

/-! ## The state machine (Unit 4) -/

/-- The value re-derivation gives `DEVSTATE` (R192). -/
def derivedState (st : NetStatus) : DevState := if st.connected then .provisioned else .ready

/-- `rederive_and_broadcast()`; the status it returns is `s.nextStatus` (R192). -/
def rederiveAndBroadcast (s : State) : State := broadcast (s.askStatus.setDev (derivedState s.nextStatus))

/-- `connectWiFi`, up to the answer of `NET.connect` (R194). -/
def connectEntry (ssid password : Bytes) (s : State) : State :=
  (broadcast (s.setDev .provisioning)).askConnect ssid password

/-- `connectWiFi`, success (R195). -/
def connectSuccess (ssid password : Bytes) (s : State) : State :=
  let s1 := (s.setDev .provisioned).setErr .none
  broadcast ((s1.credPut s1.cfg.credKeySsid ssid).credPut s1.cfg.credKeyPassword password)

/-- `connectWiFi(ssid, password)`; it returned true iff `s.nextConnect` is success (R194 to R196). -/
def connectWiFi (ssid password : Bytes) (s : State) : State :=
  let s1 := connectEntry ssid password s
  match s.nextConnect with
  | .success => connectSuccess ssid password s1
  | .failure => raise .connectionFailed s1

end Sys2Proof.Machine
end

