-- ==== Sys2Proof/Machine/Commands.lean ====
section
/-! DEFINITION. The commands of the RPC mux (spec/42_command_dispatcher.md R164 to R169). -/

namespace Sys2Proof.Machine

/-- `do_request_state()`: the state tested is the re-derived one, and the URL's `ip` is of the same answer (R164). -/
def doRequestState (s : State) : State :=
  let s1 := rederiveAndBroadcast s
  if s1.devState = .provisioned then emitResult (urlStrings s.nextStatus.ip) s1 else s1

/-- `RPC.RequestState` (R164); the argument bytes are ignored (R86). -/
def execRpcRequestState (_args : Bytes) (s : State) : Host.Outcome State Fault Refusal :=
  complete doRequestState s

/-- `do_request_info()` (R165). -/
def doRequestInfo (s : State) : State := emitResult (infoStrings s.cfg) s

/-- `RPC.RequestInfo` (R165); the argument bytes are ignored (R86). -/
def execRpcRequestInfo (_args : Bytes) (s : State) : Host.Outcome State Fault Refusal :=
  complete doRequestInfo s

/-- One result for each network in the reported order, then the empty-list marker (R166). -/
def emitScan : List ScanEntry → State → State
  | [], s => emitResult [] s
  | net :: nets, s => emitScan nets (emitResult (scanStrings net) s)

/-- `do_request_scan()` (R166). -/
def doRequestScan (s : State) : State := emitScan s.nextScan s.askScan

/-- `RPC.RequestScan` (R166); the argument bytes are ignored (R86). -/
def execRpcRequestScan (_args : Bytes) (s : State) : Host.Outcome State Fault Refusal :=
  complete doRequestScan s

/-- The action of `SendWiFi` after a successful connect: the URL of a status read made after it, whatever its
`connected` (R168, U8). -/
def sendRedirect (s : State) : State := emitResult (urlStrings s.nextStatus.ip) s.askStatus

/-- `SendWiFi` on parsed operands (R168). -/
def sendWifiAction (w : WifiArgs) (s : State) : State :=
  let s1 := connectWiFi w.ssid w.password s
  match s.nextConnect with
  | .success => sendRedirect s1
  | .failure => s1

/-- `do_send_wifi(args)` (R167, R168). -/
def doSendWiFi (args : Bytes) (s : State) : State :=
  match parseWifi args with
  | none => raise .malformedPayload s
  | some w => sendWifiAction w s

/-- `RPC.SendWiFi` (R167, R168). -/
def execRpcSendWiFi (args : Bytes) (s : State) : Host.Outcome State Fault Refusal :=
  complete (doSendWiFi args) s

/-- `RPC.Unknown`: `UnknownCommand` (R169, R247). -/
def execRpcUnknown (_cmd : Byte) (_args : Bytes) (s : State) : Host.Outcome State Fault Refusal :=
  complete (raise .unknownCommand) s

end Sys2Proof.Machine
end

