-- ==== Sys2Proof/Machine/Ignored.lean ====
section
/-! DEFINITION. The inbound frames the dispatcher ignores silently: no state change, no frame, no log, no call
(spec/42_command_dispatcher.md R160 to R162; spec/60_exceptions.md R244 to R246; log entry 10). -/

namespace Sys2Proof.Machine

/-- `RX.CURRENT_STATE`: `NonRpcFrame` (R160, R244). -/
def execRxCurrentState (_version : Byte) (_payload : Bytes) (s : State) : Host.Outcome State Fault Refusal :=
  .next (raise .nonRpcFrame s)

/-- `RX.ERROR_STATE`: `NonRpcFrame` (R160, R244). -/
def execRxErrorState (_version : Byte) (_payload : Bytes) (s : State) : Host.Outcome State Fault Refusal :=
  .next (raise .nonRpcFrame s)

/-- `RX.RPC_RESULT`: `NonRpcFrame` (R160, R244). -/
def execRxRpcResult (_version : Byte) (_payload : Bytes) (s : State) : Host.Outcome State Fault Refusal :=
  .next (raise .nonRpcFrame s)

/-- `RX.UnassignedType`: `NonRpcFrame` (R160, R244). -/
def execRxUnassignedType (_version _type : Byte) (_payload : Bytes) (s : State) : Host.Outcome State Fault Refusal :=
  .next (raise .nonRpcFrame s)

/-- `RPC.ForeignVersion`: `VersionMismatch` (R161, R245). -/
def execRpcForeignVersion (_version : Byte) (_payload : Bytes) (s : State) : Host.Outcome State Fault Refusal :=
  .next (raise .versionMismatch s)

/-- `RPC.Empty`: `EmptyRpc` (R162, R246). -/
def execRpcEmpty (s : State) : Host.Outcome State Fault Refusal :=
  .next (raise .emptyRpc s)

end Sys2Proof.Machine
end

