-- ==== Sys2Proof/Machine/Outbound.lean ====
section
/-! DEFINITION. The outbound rows: the actions that put a frame of each outbound kind on `TX` (spec/43_state_machine.md
R190, R191; spec/30_encoding.md R92; log entry 8). -/

namespace Sys2Proof.Machine

/-- `TX.CURRENT_STATE`: `broadcast()` emits it with `DEVSTATE` as its operand (R190). -/
def execTxCurrentState (state : DevState) (s : State) : Host.Outcome State Fault Refusal :=
  complete (emitCurrentState state) s

/-- `TX.ERROR_STATE`: `set_error(e)` (R191). -/
def execTxErrorState (error : ErrState) (s : State) : Host.Outcome State Fault Refusal :=
  complete (setError error) s

/-- `TX.RPC_RESULT`: the string list is emitted (R92). -/
def execTxRpcResult (strings : List Bytes) (s : State) : Host.Outcome State Fault Refusal :=
  complete (emitResult strings) s

end Sys2Proof.Machine
end

