-- ==== Sys2Proof/Machine/Dispatch.lean ====
section
/-! DEFINITION. What each instruction does, one arm per row of `opcode_table.json` (spec/42_command_dispatcher.md R173). -/

namespace Sys2Proof.Machine

def exec (i : Instr) (s : State) : Host.Outcome State Fault Refusal :=
  match i with
  | .rxCurrentState version payload => Sys2Proof.Machine.execRxCurrentState version payload s
  | .rxErrorState version payload => Sys2Proof.Machine.execRxErrorState version payload s
  | .rxRpcResult version payload => Sys2Proof.Machine.execRxRpcResult version payload s
  | .rpcEmpty => Sys2Proof.Machine.execRpcEmpty s
  | .rpcSendWiFi args => Sys2Proof.Machine.execRpcSendWiFi args s
  | .rpcRequestState args => Sys2Proof.Machine.execRpcRequestState args s
  | .rpcRequestInfo args => Sys2Proof.Machine.execRpcRequestInfo args s
  | .rpcRequestScan args => Sys2Proof.Machine.execRpcRequestScan args s
  | .rpcUnknown cmd args => Sys2Proof.Machine.execRpcUnknown cmd args s
  | .rpcForeignVersion version payload => Sys2Proof.Machine.execRpcForeignVersion version payload s
  | .rxUnassignedType version type payload => Sys2Proof.Machine.execRxUnassignedType version type payload s
  | .txCurrentState state => Sys2Proof.Machine.execTxCurrentState state s
  | .txErrorState error => Sys2Proof.Machine.execTxErrorState error s
  | .txRpcResult strings => Sys2Proof.Machine.execTxRpcResult strings s

end Sys2Proof.Machine
end

