-- ==== Sys2Proof/Machine/Operations.lean ====
section
/-! DEFINITION. The operations the environment issues: `feed` (spec/41_frame_decoder.md R148), `begin`, `tick`,
`statusText` (spec/43_state_machine.md R193, R197, R199), `reset` (spec/70_reset_and_hazards.md R280), and the selection
of the next one (R284). -/

namespace Sys2Proof.Machine

/-- `dispatch(fr)` (R173). -/
def dispatch (fr : Frame) (s : State) : Host.Outcome State Fault Refusal := exec (mux s.cfg fr) s

/-- What `feed` does after the append, on the verdict about the buffer: a wait, a condition, or a frame handed to the
dispatcher with the accumulator cleared first (R121, R122, R142 to R146). -/
def feedVerdict (verdict : Except Reject Frame) (s : State) : Host.Outcome State Fault Refusal :=
  match verdict with
  | .error .gate => .next s
  | .error .incomplete => .next s
  | .error .framingError => .next (raise .framingError s)
  | .error .lengthTooLarge => .next (raise .lengthTooLarge s)
  | .error .checksumMismatch => .next (raise .checksumMismatch s)
  | .ok fr => dispatch fr (s.setAcc [])

/-- `feed(b)`: the unconditional append (R120), then the decoder on the buffer (R148). -/
def feed (b : Byte) (s : State) : Host.Outcome State Fault Refusal :=
  let s1 := (s.record (.feed b)).setAcc (s.acc ++ [b])
  feedVerdict (checkFrame s1.cfg s1.acc) s1

/-- `begin()` (R193). -/
def doBegin (s : State) : State :=
  let s1 := (s.record .begun)
  let s2 := s1.askCred s1.cfg.credKeySsid
  match s1.nextCred with
  | none => s2
  | some ssid => connectWiFi ssid (s2.nextCred.getD []) (s2.askCred s2.cfg.credKeyPassword)

/-- `tick()` (R197). -/
def doTick (s : State) : State := rederiveAndBroadcast (s.record .tick)

/-- `statusText()`: the text it returns is in its trace event (R199, R64). DESIGN CHOICE (log entry 13): the spec does not say
whether the event `StatusText -> text` stands before or after the `NetStatus` call; it stands after it, when the text is
returned. -/
def doStatusText (s : State) : State := s.askStatus.record (.statusText (statusLine s.nextStatus))

/-- `reset`: the block's registers take their reset values and the histories are emptied; the configuration and the
environment are not reset (R27, R29, R280). -/
def doReset (s : State) : State :=
  { s with acc := [], devState := .ready, errState := .none, trace := [.reset] }

/-- One operation of the environment (R284). -/
def perform (op : EnvOp) (s : State) : Host.Outcome State Fault Refusal :=
  match op with
  | .reset => .next (doReset s)
  | .begin => complete doBegin s
  | .feed b => feed b s
  | .tick => complete doTick s
  | .statusText => complete doStatusText s

/-- One pass of the control loop as the environment schedules it: the bytes the transport has, drained first, then the
tick if it is due (R261, R284). -/
def loopPass (received : Bytes) (tickDue : Bool) : List EnvOp :=
  received.map EnvOp.feed ++ (if tickDue then [EnvOp.tick] else [])

/-- The schedule that follows `reset`: `begin` once, then the passes of the loop (R282, R284). -/
def bootSchedule (passes : List (Bytes × Bool)) : List EnvOp :=
  EnvOp.begin :: passes.flatMap (fun pass => loopPass pass.1 pass.2)

/-- The control loop's next step: the oldest pending operation, run to completion; with none pending the block "is idle
and holds its state" (R260, R284). -/
def runNext (s : State) : Host.Outcome State Fault Refusal :=
  match s.env.schedule with
  | [] => .next s
  | op :: rest => perform op { s with env := { s.env with schedule := rest } }

/-- The rules are stated for a well-formed configuration; any other is refused (R14, U6). -/
def guardedNext (s : State) : Host.Outcome State Fault Refusal :=
  if s.cfg.wf then runNext s else .refused .illFormedConfig

/-- The accumulator holds all of a frame but its last byte, and that byte is the next one fed. -/
def loadFrame (bytes : Bytes) (s : State) : State :=
  { s with
    acc := bytes.dropLast
    env := { s.env with schedule := .feed (bytes.getLastD 0) :: s.env.schedule } }

end Sys2Proof.Machine
end

