-- ==== Sys2Proof/Machine/Step.lean ====
section
/-! DEFINITION. One step of the machine, and the placing of an instruction where the next step runs it. -/

namespace Sys2Proof.Machine

/-- One step: the next operation of the environment's schedule (R284). -/
def step (s : State) : Host.Outcome State Fault Refusal := guardedNext s

/-- The state in which the next step completes the frame of the table word `w` and runs it (log entries 5 and 7). -/
def State.withFetchWord (s : State) (nbits w : Nat) : State := loadFrame (tableFrame s.cfg nbits w) s

end Sys2Proof.Machine
end

