-- ==== Sys2Proof/Safety.lean ====
section
/-! DEFINITION. The terms in which claims are made: the invariant of the accumulator (spec/10_state.md R22), what may stand
on `TX`, the registers' values between operations, the events an emission leaves, and the schedules the spec allows
(spec/70_reset_and_hazards.md R282, R284). -/

namespace Sys2Proof.Machine

/-- The invariant of the accumulator between operations: (a) a short buffer, or (b) an aligned, accepted header whose
frame is incomplete (R22). -/
abbrev AccInv (c : Cfg) (acc : Bytes) : Prop :=
  acc.length ≤ 8 ∨
    (9 ≤ acc.length ∧ acc.length < 9 + declaredLen acc + 1 ∧ slice acc 0 6 = c.magic ∧ declaredLen acc ≤ lenCeiling)

/-- `bytes` is a frame of one of the three outbound rows (R99, R223). -/
def IsOutboundFrame (c : Cfg) (bytes : Bytes) : Prop :=
  ∃ i : Instr, i.inbound = false ∧ i.wf c = true ∧ bytes = encode c i

/-- Every frame on `TX` is of an outbound row (R2, R99). -/
def TxWellFormed (s : State) : Prop := ∀ bytes ∈ s.txFrames, IsOutboundFrame s.cfg bytes

/-- `DEVSTATE` holds a value it can have between operations (R201). -/
abbrev DevSettled (s : State) : Prop := s.devState ≠ .provisioning

/-- `ERRSTATE` holds a value some rule writes (R26, R252). -/
abbrev ErrProduced (s : State) : Prop :=
  s.errState = .none ∨ s.errState = .unknownRpc ∨ s.errState = .unableToConnect

/-- No call that never returns has been made (U1; log entry 4). -/
abbrev CallsReturned (s : State) : Prop := s.env.callsLeft ≠ .overrun

/-- The invariant of the machine between operations. -/
def Inv (s : State) : Prop :=
  AccInv s.cfg s.acc ∧ DevSettled s ∧ ErrProduced s ∧ CallsReturned s ∧ TxWellFormed s

/-- Every collaborator call returns (R283 (b)). -/
abbrev AllReturn (s : State) : Prop := s.env.callsLeft = .allReturn

/-- The events of a string-list builder's warnings (R251). -/
def truncationEvents (strings : List Bytes) : List Event :=
  (strings.filter (fun str => decide (strMax < str.length))).map (fun _ => Event.log .stringTruncated)

/-- The events of `emit(TYPE_RPC_RESULT, sl(L))`: the warnings, then the frame, or the log entry of a payload over 255
bytes (R87, R221, R250, R251). -/
def resultEvents (c : Cfg) (strings : List Bytes) : List Event :=
  truncationEvents strings ++
    (if slSize strings ≤ payloadMax then [Event.tx (frameBytes c c.protoVersion c.typeRpcResult (sl strings))]
     else [Event.log .encoderOversize])

/-- `CURRENT_STATE(d)` on `TX` (R98). -/
def currentStateEvent (c : Cfg) (d : DevState) : Event :=
  .tx (frameBytes c c.protoVersion c.typeCurrentState [d.code c])

/-- `ERROR_STATE(e)` on `TX` (R98). -/
def errorStateEvent (c : Cfg) (e : ErrState) : Event :=
  .tx (frameBytes c c.protoVersion c.typeErrorState [e.code c])

/-- The operations of the loop: everything but `reset` and `begin` (R284). -/
def EnvOp.ofLoop : EnvOp → Bool
  | .reset => false
  | .begin => false
  | .feed _ => true
  | .tick => true
  | .statusText => true

/-- An event by which the environment sets the block going: `Reset`, `Begin`, `Feed` or `Tick` (R64, R284). -/
def Event.isArrival : Event → Bool
  | .reset => true
  | .begun => true
  | .feed _ => true
  | .tick => true
  | .tx _ => false
  | .log _ => false
  | .netStatus _ => false
  | .netScan _ => false
  | .netConnect _ _ _ _ _ => false
  | .credGet _ _ => false
  | .credPut _ _ => false
  | .statusText _ => false

/-- The arrivals of the passes of the control loop, in order (R261, R284). -/
def passEvents (passes : List (Bytes × Bool)) : List Event :=
  passes.flatMap fun pass => pass.1.map Event.feed ++ (if pass.2 then [Event.tick] else [])

/-- A schedule the spec allows after a state in which `begin` has (`booted`) or has not yet run: `begin` exactly once
after each `reset`, before the first `feed` and the first `tick`; `statusText` anywhere (R280, R282, R284). -/
def legalSchedule : Bool → List EnvOp → Bool
  | _, [] => true
  | _, .reset :: rest => legalSchedule false rest
  | false, .begin :: rest => legalSchedule true rest
  | true, .begin :: _ => false
  | booted, .statusText :: rest => legalSchedule booted rest
  | booted, .feed _ :: rest => booted && legalSchedule booted rest
  | booted, .tick :: rest => booted && legalSchedule booted rest

/-- `MAGIC` stands at position `q` of a stream (R124). -/
abbrev magicAt (c : Cfg) (stream : Bytes) (q : Nat) : Prop := slice stream q (q + magicLen) = c.magic

/-- A stream of bytes as the operations that feed it (R51). -/
def feedsOf (bytes : Bytes) : List EnvOp := bytes.map EnvOp.feed

/-- The next operation is `op`, and the configuration is one the rules are stated for (R14, R284). -/
abbrev Next (op : EnvOp) (rest : List EnvOp) (s : State) : Prop :=
  s.cfg.wf = true ∧ s.env.schedule = op :: rest

/-- `k` steps, stopping at the first fault or refusal: `Host.Core.run core` on this machine's own types. -/
def runSteps : Nat → State → Host.Outcome State Fault Refusal
  | 0, s => .next s
  | k + 1, s =>
    match step s with
    | .next t => runSteps k t
    | .fault r => .fault r
    | .refused r => .refused r

/-- An outcome with its next state changed; a fault or a refusal stays. -/
def mapNext (f : State → State) : Host.Outcome State Fault Refusal → Host.Outcome State Fault Refusal
  | .next t => .next (f t)
  | .fault r => .fault r
  | .refused r => .refused r

/-- The state with further answers scripted behind those it holds. -/
def State.withMoreAnswers (status : List NetStatus) (scan : List (List ScanEntry)) (connect : List ConnectResult)
    (cred : List (Option Bytes)) (s : State) : State :=
  { s with env :=
    { s.env with
      statusAnswers := s.env.statusAnswers ++ status
      scanAnswers := s.env.scanAnswers ++ scan
      connectAnswers := s.env.connectAnswers ++ connect
      credAnswers := s.env.credAnswers ++ cred } }

/-- At least as many answers are scripted as any one operation draws: one status, one scan, one connect, two credentials
(R164, R166, R168, R193). -/
abbrev EnoughScripted (s : State) : Prop :=
  s.env.statusAnswers ≠ [] ∧ s.env.scanAnswers ≠ [] ∧ s.env.connectAnswers ≠ [] ∧ 2 ≤ s.env.credAnswers.length

/-- The state after `op` has been taken from the schedule and its event recorded. -/
def begunWith (e : Event) (rest : List EnvOp) (s : State) : State :=
  { s with trace := s.trace ++ [e], env := { s.env with schedule := rest } }

/-- The state after the append of a `feed` (R120). -/
def appended (b : Byte) (rest : List EnvOp) (s : State) : State :=
  { begunWith (.feed b) rest s with acc := s.acc ++ [b] }

/-- What a `connectWiFi` that succeeds leaves: the registers, and the events in their order (R194, R195). -/
def connectedEvents (c : Cfg) (ssid password : Bytes) : List Event :=
  [currentStateEvent c .provisioning,
   .netConnect ssid password connectAttempts c.retryDelay .success,
   .credPut c.credKeySsid ssid, .credPut c.credKeyPassword password,
   currentStateEvent c .provisioned]

/-- The events of a `connectWiFi` that fails (R194, R196). -/
def unconnectedEvents (c : Cfg) (ssid password : Bytes) : List Event :=
  [currentStateEvent c .provisioning,
   .netConnect ssid password connectAttempts c.retryDelay .failure,
   currentStateEvent c .ready, errorStateEvent c .unableToConnect]

/-- The value a decimal text stands for: the reading of R172 against which `dec` is stated. -/
def readNat (t : Bytes) : Nat := t.foldl (fun n b => 10 * n + (b.toNat - 0x30)) 0

/-- The integer a decimal text with an optional minus sign stands for (R172). -/
def readDec : Bytes → Int
  | 0x2D :: t => -(readNat t : Int)
  | t => readNat t

end Sys2Proof.Machine
end

