-- ==== Sys2Proof/Certificates/Slice0/Obligations.lean ====
section
/-! DEFINITION. The statements for the provers. Each docstring names the rules of spec/ it rests on. -/

open Sys2Proof Sys2Proof.Machine

/-! ## Reset and the step -/

/-- R280: `reset`, in any state, gives the block its reset values, empties the histories, calls nobody, writes nothing,
and leaves the configuration and the environment alone. That the accumulator, `ERRSTATE` and the histories take these
values is a choice: the spec's decision D23 (log entry 6). -/
def Obligations.ResetOperationRestoresBlock : Prop :=
  ∀ (s : State) (rest : List EnvOp), Next .reset rest s →
    ∃ t, step s = .next t ∧ t.acc = [] ∧ t.accLen = 0 ∧ t.devState = .ready ∧ t.errState = .none ∧ t.txs = [] ∧
      t.logs = [] ∧ t.calls = [] ∧ t.cfg = s.cfg ∧ t.env = { s.env with schedule := rest }

/-- The state after reset meets the invariant and the table of R33. The trace that holds the one event `Reset` is log entry
6, the model's choice; the reference configuration is log entry 2. -/
def Obligations.ResetStateMeetsInvariant : Prop :=
  Inv State.reset ∧ State.reset.cfg.wf = true ∧ State.reset.accLen = 0 ∧ State.reset.devState = .ready ∧
    State.reset.errState = .none ∧ State.reset.inBody = false ∧ State.reset.txs = [] ∧ State.reset.logs = [] ∧
    State.reset.calls = []

/-- R146, R148, R163: when the buffered bytes and the next one decode to an instruction, the step appends the byte, clears
the accumulator and runs exactly that instruction; and what is decoded is an instruction the host can send. -/
def Obligations.StepRunsDecodedInstruction : Prop :=
  ∀ (s : State) (b : Byte) (rest : List EnvOp) (i : Instr), Next (.feed b) rest s →
    decode s.cfg (s.acc ++ [b]) = .ok i →
      step s = exec i { appended b rest s with acc := [] } ∧ i.inbound = true

/-- R14, U6: a configuration that is not well-formed is refused. R260: with no operation pending the block holds its
state. That the step refuses, and that it idles, is the model's choice (log entries 17 and 5). -/
def Obligations.StepRefusesIllFormedAndIdles : Prop :=
  (∀ s : State, s.cfg.wf = false → step s = .refused .illFormedConfig) ∧
    (∀ s : State, s.cfg.wf = true → s.env.schedule = [] → step s = .next s)

/-! ## `feed` -/

/-- R120, R121: below nine bytes the byte is stored and nothing else happens. That nothing is compared or dropped there is
a choice: the spec's decision D11 (log entry 19, DEDUCED). -/
def Obligations.FeedBelowGateOnlyStores : Prop :=
  ∀ (s : State) (b : Byte) (rest : List EnvOp), Next (.feed b) rest s → (s.acc ++ [b]).length < 9 →
    step s = .next (appended b rest s)

/-- R122, R241: a buffer that does not start with `MAGIC` loses exactly its first byte, silently. -/
def Obligations.FeedMisalignedDropsFirstByte : Prop :=
  ∀ (s : State) (b : Byte) (rest : List EnvOp), Next (.feed b) rest s → 9 ≤ (s.acc ++ [b]).length →
    slice (s.acc ++ [b]) 0 6 ≠ s.cfg.magic →
    step s = .next { appended b rest s with acc := (s.acc ++ [b]).drop 1 }

/-- R142, R242: a declared length over 200 clears the accumulator and is logged. -/
def Obligations.FeedOverCeilingClearsAndLogs : Prop :=
  ∀ (s : State) (b : Byte) (rest : List EnvOp), Next (.feed b) rest s → 9 ≤ (s.acc ++ [b]).length →
    slice (s.acc ++ [b]) 0 6 = s.cfg.magic → 200 < declaredLen (s.acc ++ [b]) →
    step s = .next { appended b rest s with
      acc := []
      trace := s.trace ++ [.feed b, .log .lengthTooLarge] }

/-- R143: an aligned, accepted header waits until `expected_size` bytes are held. -/
def Obligations.FeedIncompleteFrameWaits : Prop :=
  ∀ (s : State) (b : Byte) (rest : List EnvOp), Next (.feed b) rest s → 9 ≤ (s.acc ++ [b]).length →
    slice (s.acc ++ [b]) 0 6 = s.cfg.magic → declaredLen (s.acc ++ [b]) ≤ 200 →
    (s.acc ++ [b]).length < 9 + declaredLen (s.acc ++ [b]) + 1 →
    step s = .next (appended b rest s)

/-- R144, R145, R243: a wrong checksum discards every buffered byte and is logged; nothing is sent. -/
def Obligations.FeedWrongChecksumClearsAndLogs : Prop :=
  ∀ (s : State) (b : Byte) (rest : List EnvOp), Next (.feed b) rest s → 9 ≤ (s.acc ++ [b]).length →
    slice (s.acc ++ [b]) 0 6 = s.cfg.magic → declaredLen (s.acc ++ [b]) ≤ 200 →
    9 + declaredLen (s.acc ++ [b]) + 1 ≤ (s.acc ++ [b]).length →
    sum8 (slice (s.acc ++ [b]) 0 (9 + declaredLen (s.acc ++ [b])))
      ≠ byteAt (s.acc ++ [b]) (9 + declaredLen (s.acc ++ [b])) →
    step s = .next { appended b rest s with
      acc := []
      trace := s.trace ++ [.feed b, .log .checksumMismatch] }

/-- R146: a right checksum hands the frame cut from the buffer to the dispatcher, the accumulator cleared first. -/
def Obligations.FeedRightChecksumDispatches : Prop :=
  ∀ (s : State) (b : Byte) (rest : List EnvOp), Next (.feed b) rest s → 9 ≤ (s.acc ++ [b]).length →
    slice (s.acc ++ [b]) 0 6 = s.cfg.magic → declaredLen (s.acc ++ [b]) ≤ 200 →
    9 + declaredLen (s.acc ++ [b]) + 1 ≤ (s.acc ++ [b]).length →
    sum8 (slice (s.acc ++ [b]) 0 (9 + declaredLen (s.acc ++ [b])))
      = byteAt (s.acc ++ [b]) (9 + declaredLen (s.acc ++ [b])) →
    step s = dispatch
      ⟨byteAt (s.acc ++ [b]) 6, byteAt (s.acc ++ [b]) 7, slice (s.acc ++ [b]) 9 (9 + declaredLen (s.acc ++ [b]))⟩
      { appended b rest s with acc := [] }

/-- R147, R149 (derived rules of the spec): from a buffer that can stand between operations, an emitted frame was cut from exactly `|payload| + 10`
bytes, its payload has the declared length, at most 200, and the last byte is `sum8` of the others. -/
def Obligations.EmittedFrameFillsTheBuffer : Prop :=
  ∀ (c : Cfg) (acc : Bytes) (b : Byte) (fr : Frame), c.wf = true → AccInv c acc →
    checkFrame c (acc ++ [b]) = .ok fr →
      acc.length + 1 = fr.payload.length + 10 ∧ fr.payload.length = declaredLen (acc ++ [b]) ∧
        fr.payload.length ≤ 200 ∧ b = sum8 acc ∧ acc ++ [b] = frameBytes c fr.version fr.type fr.payload

/-- R22 (a derived rule of the spec): after `reset` and after every operation the accumulator is short, or holds an aligned, accepted, incomplete frame;
so it holds at most 209 bytes between operations and 210 at every instant. -/
def Obligations.StepKeepsAccumulatorInvariant : Prop :=
  AccInv State.reset.cfg State.reset.acc ∧
    ∀ (s t : State), AccInv s.cfg s.acc → step s = .next t →
      AccInv t.cfg t.acc ∧ t.accLen ≤ 209 ∧ s.accLen + 1 ≤ 210

/-- R27: no operation writes the configuration. -/
def Obligations.StepNeverWritesConfiguration : Prop :=
  ∀ (s t : State), step s = .next t → t.cfg = s.cfg

/-- R24, last row: `begin`, `tick` and `statusText` leave the accumulator as it was. -/
def Obligations.OtherOperationsKeepAccumulator : Prop :=
  ∀ (s t : State) (op : EnvOp) (rest : List EnvOp), Next op rest s → op = .begin ∨ op = .tick ∨ op = .statusText →
    step s = .next t → t.acc = s.acc ∧ t.accLen = s.accLen ∧ t.env.schedule = rest

/-- R24, R27, R57: what an instruction of any row leaves unchanged, and that it only appends to the trace. -/
def Obligations.InstructionsKeepAccumulatorAndConfiguration : Prop :=
  ∀ (i : Instr) (s t : State), exec i s = .next t →
    t.acc = s.acc ∧ t.cfg = s.cfg ∧ t.env.schedule = s.env.schedule ∧ ∃ evs, t.trace = s.trace ++ evs

/-- R21: the dispatcher, the state machine and the encoder never read the accumulator. -/
def Obligations.InstructionsNeverReadAccumulator : Prop :=
  ∀ (i : Instr) (s : State) (a : Bytes),
    match exec i s with
    | .next t => exec i { s with acc := a } = .next { t with acc := a }
    | .fault r => exec i { s with acc := a } = .fault r
    | .refused r => exec i { s with acc := a } = .refused r

/-- R30, R57: except for `reset`, a step only appends to the histories. -/
def Obligations.StepOnlyAppendsToTrace : Prop :=
  ∀ (s t : State), s.env.schedule.head? ≠ some .reset → step s = .next t → ∃ evs, t.trace = s.trace ++ evs

/-! ## The registers between operations -/

/-- R201 (a derived rule of the spec): `Provisioning` is never the value of `DEVSTATE` between operations. -/
def Obligations.StepKeepsDevStateSettled : Prop :=
  ∀ (s t : State), DevSettled s → step s = .next t → DevSettled t

/-- R26, R252: `ERRSTATE` keeps to the three values some rule writes. That `InvalidRPC` and `Unknown` are never written is
a choice: the spec's decision D39 (log entry 14, DEDUCED). -/
def Obligations.StepKeepsErrStateProduced : Prop :=
  ∀ (s t : State), ErrProduced s → step s = .next t → ErrProduced t

/-- R2, R99, R223: every frame that ever stands on `TX` is a well-formed frame of one of the three outbound rows. -/
def Obligations.StepKeepsOutboundStreamWellFormed : Prop :=
  ∀ (s t : State), TxWellFormed s → step s = .next t → TxWellFormed t

/-- R25, R233: of the commands, only `RequestState` and `SendWiFi` change `DEVSTATE`, and they leave it settled. -/
def Obligations.OnlyStateCommandsWriteDevState : Prop :=
  ∀ (i : Instr) (s t : State), exec i s = .next t → t.devState ≠ s.devState →
    (∃ args, i = .rpcRequestState args ∨ i = .rpcSendWiFi args) ∧ DevSettled t

/-- R26, R169, R198: of the commands, only an unknown one writes `UnknownRPC` and only `SendWiFi` writes `UnableToConnect`
or `None`. Two clauses are choices (log entry 14, DEDUCED): that an unknown command writes the register is the spec's
decision D15, and that no later valid command clears it is D40. `TX.ERROR_STATE`, no command, writes it too
(`OutboundRowsSendTheirFrames`). -/
def Obligations.OnlyErrorRulesWriteErrState : Prop :=
  ∀ (i : Instr) (s t : State), i.inbound = true → exec i s = .next t → t.errState ≠ s.errState →
    ((∃ cmd args, i = .rpcUnknown cmd args) ∧ t.errState = .unknownRpc) ∨
      ((∃ args, i = .rpcSendWiFi args) ∧ (t.errState = .unableToConnect ∨ t.errState = .none))

/-- R255: exactly two conditions send anything. What `UnknownCommand` sends is R247's frame. That the raising of
`ConnectionFailed` itself sends both frames is the model's choice where R196 and R249 overlap (log entry 14, DEDUCED). -/
def Obligations.OnlyTwoConditionsSendFrames : Prop :=
  (∀ (x : Condition) (s : State), x ≠ .unknownCommand → x ≠ .connectionFailed → (raise x s).txFrames = s.txFrames) ∧
    (∀ s : State, (raise .unknownCommand s).txFrames =
      s.txFrames ++ [frameBytes s.cfg s.cfg.protoVersion s.cfg.typeErrorState [s.cfg.errUnknownRpc]]) ∧
    (∀ s : State, (raise .connectionFailed s).txFrames =
      s.txFrames ++ [frameBytes s.cfg s.cfg.protoVersion s.cfg.typeCurrentState [s.cfg.stReady],
        frameBytes s.cfg s.cfg.protoVersion s.cfg.typeErrorState [s.cfg.errUnableToConnect]])

/-- The invariant of the machine as a whole, and of it the part that no call has hung on its own (U1, R283; the budget of
calls is the model's choice, log entry 4): every step that answers a next state keeps both. -/
def Obligations.StepKeepsInvariant : Prop :=
  (∀ s t : State, CallsReturned s → step s = .next t → CallsReturned t) ∧
    ∀ s t : State, Inv s → step s = .next t → Inv t

/-- R31: which answers will be drawn is no state of the block: where each script holds as many answers as one operation
can draw, what stands behind them changes nothing in any instruction or step, but for standing there after it. That the answers are
scripted in State is the model's choice (log entry 3). -/
def Obligations.UndrawnAnswersChangeNothing : Prop :=
  ∀ (status : List NetStatus) (scan : List (List ScanEntry)) (connect : List ConnectResult)
    (cred : List (Option Bytes)) (s : State), EnoughScripted s →
    (∀ i : Instr, exec i (s.withMoreAnswers status scan connect cred) =
      mapNext (State.withMoreAnswers status scan connect cred) (exec i s)) ∧
    step (s.withMoreAnswers status scan connect cred) =
      mapNext (State.withMoreAnswers status scan connect cred) (step s)

/-! ## What each instruction does -/

/-- R160, R161, R162: a frame that is not RPC, of a foreign version, or empty, changes nothing; and so of each of the six
rows. The clauses on the empty payload and on `RPC.Empty` are a choice: the spec's decision D13 (log entry 10, DEDUCED). -/
def Obligations.IgnoredFramesChangeNothing : Prop :=
  (∀ (fr : Frame) (s : State),
    (fr.type ≠ s.cfg.typeRpc ∨ fr.version ≠ s.cfg.protoVersion ∨ fr.payload = []) → dispatch fr s = .next s) ∧
    ∀ (v ty : Byte) (p : Bytes) (s : State),
      exec (.rxCurrentState v p) s = .next s ∧ exec (.rxErrorState v p) s = .next s ∧
        exec (.rxRpcResult v p) s = .next s ∧ exec (.rxUnassignedType v ty p) s = .next s ∧
        exec (.rpcForeignVersion v p) s = .next s ∧ exec .rpcEmpty s = .next s

/-- R169, R191, R247: an unknown command id sends exactly one `ERROR_STATE` frame and changes nothing but `ERRSTATE`;
every id but the four leads here. That it writes `ERRSTATE` is a choice: the spec's decision D15 (log entry 14, DEDUCED). -/
def Obligations.UnknownCommandReportsUnknownRpc : Prop :=
  (∀ (cmd : Byte) (args : Bytes) (s : State), AllReturn s →
    exec (.rpcUnknown cmd args) s = .next { s with
      errState := .unknownRpc
      trace := s.trace ++ [.tx (frameBytes s.cfg s.cfg.protoVersion s.cfg.typeErrorState [s.cfg.errUnknownRpc])] }) ∧
    ∀ (c : Cfg) (cmd : Byte) (args : Bytes), cmd ∉ c.cmdIds →
      mux c ⟨c.protoVersion, c.typeRpc, cmd :: args⟩ = .rpcUnknown cmd args

/-- R165: the four identification strings in order, and nothing else. A list that does not fit is logged and not sent
(R221, R251), as `resultEvents` says. That the argument bytes are ignored (R86, R163) is a choice: the spec's decision D14
(log entry 10, DEDUCED). -/
def Obligations.RequestInfoSendsFourStrings : Prop :=
  ∀ (args : Bytes) (s : State), AllReturn s →
    exec (.rpcRequestInfo args) s = .next { s with
      trace := s.trace ++ resultEvents s.cfg [s.cfg.fwName, s.cfg.fwVersion, s.cfg.chipFamily, s.cfg.deviceName] }

/-- R164, R192: `DEVSTATE` is re-derived whatever it was, the `CURRENT_STATE` frame comes first, and the URL follows if
and only if the network is connected. Two clauses are choices: one status call whose same answer gives the URL is the
spec's decision D17 (log entry 18, DEDUCED), and that the argument bytes are ignored (R86) is D14 (log entry 10, DEDUCED). -/
def Obligations.RequestStateRederivesAndReports : Prop :=
  ∀ (args : Bytes) (s : State), AllReturn s →
    exec (.rpcRequestState args) s = .next { s with
      devState := if s.nextStatus.connected then .provisioned else .ready
      trace := s.trace ++
        [.netStatus s.nextStatus,
         currentStateEvent s.cfg (if s.nextStatus.connected then .provisioned else .ready)] ++
        (if s.nextStatus.connected then resultEvents s.cfg [httpText ++ s.nextStatus.ip] else [])
      env := s.env.popStatus }

/-- R164, R291: the URL result is sent if and only if the `ip` has at most 247 bytes. -/
def Obligations.UrlResultSentIffShortEnough : Prop :=
  ∀ (c : Cfg) (ip : Bytes),
    (ip.length ≤ 247 ∧ resultEvents c [httpText ++ ip] =
        [.tx (frameBytes c c.protoVersion c.typeRpcResult
          (BitVec.ofNat 8 (7 + ip.length) :: (httpText ++ ip)))]) ∨
      (248 ≤ ip.length ∧ ∀ bytes, Event.tx bytes ∉ resultEvents c [httpText ++ ip])

/-- R166: one result for each network in the reported order, then the empty-list marker; the registers are neither read
nor written. Choices: that `YES` means open (the spec's decision D20), its bytes and those of `NO` (G10), and the decimal
form (D21) are log entry 11, PRESUMED for the bytes; that the argument bytes are ignored (R86) is D14 (log entry 10,
DEDUCED). -/
def Obligations.RequestScanReportsEachNetwork : Prop :=
  ∀ (args : Bytes) (s : State), AllReturn s →
    exec (.rpcRequestScan args) s = .next { s with
      trace := s.trace ++ [.netScan s.nextScan] ++
        (s.nextScan.flatMap fun n =>
          resultEvents s.cfg [n.ssid, dec n.rssi, if n.isOpen then yesText else noText]) ++
        [.tx (frameBytes s.cfg s.cfg.protoVersion s.cfg.typeRpcResult [])]
      env := s.env.popScan }

/-- R167, R248: arguments too short for the lengths they declare have no effect at all. The silent drop is a choice: the
alternative `REPORT_INVALID` of U3 is not taken up (log entry 10, DEDUCED). So is that the tests are over `args`, with no
argument length between: the spec's decision D10 (log entry 12, DEDUCED). -/
def Obligations.ShortWifiArgumentsAreDropped : Prop :=
  ∀ (args : Bytes) (s : State), CallsReturned s →
    (args.length < 1 ∨ args.length < 1 + (byteAt args 0).toNat + 1 ∨
      args.length < 1 + (byteAt args 0).toNat + 1 + (byteAt args (1 + (byteAt args 0).toNat)).toNat) →
    exec (.rpcSendWiFi args) s = .next s

/-- R87, R89, R167: `lp(ssid) ++ lp(password)`, with any bytes after it, is read back as the two strings. -/
def Obligations.WifiArgumentsReadBack : Prop :=
  ∀ (ssid password extra : Bytes), ssid.length ≤ 255 → password.length ≤ 255 →
    parseWifi (lenPrefixed ssid ++ lenPrefixed password ++ extra) = some ⟨ssid, password⟩

/-- R168, R194, R195: a `SendWiFi` whose connect succeeds. Choices (log entry 18, DEDUCED): the two credential writes,
their keys and their order are the spec's decision D25, and the URL from a status call made after the connect is D38. -/
def Obligations.SendWifiSuccess : Prop :=
  ∀ (args : Bytes) (w : WifiArgs) (s : State), AllReturn s → parseWifi args = some w → s.nextConnect = .success →
    exec (.rpcSendWiFi args) s = .next { s with
      devState := .provisioned
      errState := .none
      trace := s.trace ++ connectedEvents s.cfg w.ssid w.password ++
        [.netStatus (State.nextStatus { s with env := s.env.popConnect })] ++
        resultEvents s.cfg [httpText ++ (State.nextStatus { s with env := s.env.popConnect }).ip]
      env := s.env.popConnect.popStatus }

/-- R168, R194, R196, R249: a `SendWiFi` whose connect fails. Choices: one broadcast of `Ready` where R196 and R249
overlap, and `set_error` writing the register as it sends the frame (the spec's decision D15), are log entry 14, DEDUCED;
the single connect call with its 20 attempts is D26 (log entry 18, DEDUCED). -/
def Obligations.SendWifiFailure : Prop :=
  ∀ (args : Bytes) (w : WifiArgs) (s : State), AllReturn s → parseWifi args = some w → s.nextConnect = .failure →
    exec (.rpcSendWiFi args) s = .next { s with
      devState := .ready
      errState := .unableToConnect
      trace := s.trace ++ unconnectedEvents s.cfg w.ssid w.password
      env := s.env.popConnect }

/-- R190, R191, R92: what the outbound rows put on `TX`, and that only `TX.ERROR_STATE` writes a register. Choices: that
`TX.CURRENT_STATE` takes its state as an operand (log entry 8); the one-byte payloads and the bare string list, the spec's
decisions D8 and D9 (log entry 12, DEDUCED); that `TX.ERROR_STATE` writes `ERRSTATE`, D15 (log entry 14, DEDUCED). -/
def Obligations.OutboundRowsSendTheirFrames : Prop :=
  ∀ (d : DevState) (e : ErrState) (l : List Bytes) (s : State), AllReturn s →
    exec (.txCurrentState d) s = .next { s with
      trace := s.trace ++ [.tx (frameBytes s.cfg s.cfg.protoVersion s.cfg.typeCurrentState [d.code s.cfg])] } ∧
    exec (.txErrorState e) s = .next { s with
      errState := e
      trace := s.trace ++ [.tx (frameBytes s.cfg s.cfg.protoVersion s.cfg.typeErrorState [e.code s.cfg])] } ∧
    exec (.txRpcResult l) s = .next { s with trace := s.trace ++ resultEvents s.cfg l }

/-- U1, R283: an instruction is never refused and stops only because a collaborator call never returns; where the next call
never returns, every instruction that makes one in every case stops. The budget of calls is the model's choice (log entry
4). -/
def Obligations.InstructionsStopOnlyWhenACallHangs : Prop :=
  (∀ (i : Instr) (s : State), (∃ t, exec i s = .next t) ∨ exec i s = .fault .collaboratorNeverReturns) ∧
    (∀ (i : Instr) (s : State), AllReturn s → ∃ t, exec i s = .next t ∧ AllReturn t) ∧
    ∀ (cmd : Byte) (args : Bytes) (d : DevState) (e : ErrState) (s : State), s.env.callsLeft = .left 0 →
      exec (.rpcRequestState args) s = .fault .collaboratorNeverReturns ∧
        exec (.rpcRequestScan args) s = .fault .collaboratorNeverReturns ∧
        exec (.rpcUnknown cmd args) s = .fault .collaboratorNeverReturns ∧
        exec (.txCurrentState d) s = .fault .collaboratorNeverReturns ∧
        exec (.txErrorState e) s = .fault .collaboratorNeverReturns

/-! ## The operations without an encoding -/

/-- U1, R283: the operations that make a call, `begin`, `tick` and `statusText`, stop only because a call never returns;
they complete where every call returns, and stop where the next call never returns. The budget of calls is the model's
choice (log entry 4). -/
def Obligations.OperationsStopOnlyWhenACallHangs : Prop :=
  ∀ (s : State) (op : EnvOp) (rest : List EnvOp), Next op rest s → op = .begin ∨ op = .tick ∨ op = .statusText →
    ((∃ t, step s = .next t) ∨ step s = .fault .collaboratorNeverReturns) ∧
      (AllReturn s → ∃ t, step s = .next t ∧ AllReturn t) ∧
      (s.env.callsLeft = .left 0 → step s = .fault .collaboratorNeverReturns)

/-- R193: with no stored SSID `begin` asks once and emits nothing. That credentials exist if the SSID key has a value, and
that this key is asked first, is a choice: the spec's decision D24 (log entry 18, DEDUCED). -/
def Obligations.BeginWithoutCredentials : Prop :=
  ∀ (s : State) (rest : List EnvOp), Next .begin rest s → AllReturn s → s.nextCred = none →
    step s = .next { s with
      trace := s.trace ++ [.begun, .credGet s.cfg.credKeySsid none]
      env := { s.env.popCred with schedule := rest } }

/-- R193 to R196: with a stored SSID `begin` asks for the password and connects; it emits no result frame. Choices (log
entry 18, DEDUCED): the keys and the empty password where none is stored are the spec's decision D24, and the two
credential writes and their order are D25. -/
def Obligations.BeginWithCredentialsConnects : Prop :=
  ∀ (s s1 s2 : State) (rest : List EnvOp) (ssid : Bytes), Next .begin rest s → AllReturn s →
    s.nextCred = some ssid → s1 = { s with env := s.env.popCred } → s2 = { s1 with env := s1.env.popCred } →
    step s = .next
      (match s2.nextConnect with
      | .success => { s with
          devState := .provisioned
          errState := .none
          trace := s.trace ++ [.begun, .credGet s.cfg.credKeySsid (some ssid),
            .credGet s.cfg.credKeyPassword s1.nextCred] ++ connectedEvents s.cfg ssid (s1.nextCred.getD [])
          env := { s2.env.popConnect with schedule := rest } }
      | .failure => { s with
          devState := .ready
          errState := .unableToConnect
          trace := s.trace ++ [.begun, .credGet s.cfg.credKeySsid (some ssid),
            .credGet s.cfg.credKeyPassword s1.nextCred] ++ unconnectedEvents s.cfg ssid (s1.nextCred.getD [])
          env := { s2.env.popConnect with schedule := rest } })

/-- R197, R192: a tick re-derives `DEVSTATE`, whatever it was, and broadcasts it. Choices: that it sends exactly one
`CURRENT_STATE` frame and no `ERROR_STATE` is the spec's decision D16 (log entry 14, DEDUCED), and the single status call
is D17 (log entry 18, DEDUCED). -/
def Obligations.TickBroadcastsDerivedState : Prop :=
  ∀ (s : State) (rest : List EnvOp), Next .tick rest s → AllReturn s →
    step s = .next { s with
      devState := if s.nextStatus.connected then .provisioned else .ready
      trace := s.trace ++ [.tick, .netStatus s.nextStatus,
        currentStateEvent s.cfg (if s.nextStatus.connected then .provisioned else .ready)]
      env := { s.env.popStatus with schedule := rest } }

/-- R199: `statusText` returns the text of one status answer and writes neither register nor `TX`. Choices: that it is
this pure read is the spec's decision D34 (log entry 18, DEDUCED), the bytes of the literal texts are PRESUMED to be ASCII
(G10, log entry 11), and the event `StatusText` stands after the `NetStatus` call (log entry 13). -/
def Obligations.StatusTextIsPureRead : Prop :=
  ∀ (s : State) (rest : List EnvOp), Next .statusText rest s → AllReturn s →
    step s = .next { s with
      trace := s.trace ++ [.netStatus s.nextStatus, .statusText
        (if s.nextStatus.connected then wifiText ++ s.nextStatus.ssid ++ openText ++ s.nextStatus.ip ++ closeText
         else wifiText ++ notConnectedText)]
      env := { s.env.popStatus with schedule := rest } }

/-- R289, R197: a partial frame stays in the accumulator across any number of ticks, each of which sends one frame.
Choices of the spec (log entry 15): no time-out, D35, and ticks at any place between operations, D27; one frame for each
tick is D16 (log entry 14, DEDUCED). -/
def Obligations.PartialFrameSurvivesTicks : Prop :=
  ∀ (n : Nat) (s : State) (rest : List EnvOp), s.cfg.wf = true → AllReturn s →
    s.env.schedule = List.replicate n .tick ++ rest →
    ∃ t, runSteps n s = .next t ∧ t.acc = s.acc ∧ t.errState = s.errState ∧ t.env.schedule = rest ∧
      t.txFrames.length = s.txFrames.length + n

/-- R282, R284, R261: the schedule of the control loop, `begin` and then passes of bytes and ticks, runs to its end, with
`Begin` recorded once, before everything else, and the `Feed`s and `Tick`s of the passes after it in their order. That
`begin` precedes the loop is the spec's decision D23 and the place of the events among their effects is the model's choice
(log entries 5 and 13). -/
def Obligations.BootScheduleBeginsOnceAndFirst : Prop :=
  ∀ (passes : List (Bytes × Bool)) (s : State), s.cfg.wf = true → AllReturn s →
    s.env.schedule = bootSchedule passes →
    ∃ t evs, runSteps (bootSchedule passes).length s = .next t ∧ t.env.schedule = [] ∧
      t.trace = s.trace ++ Event.begun :: evs ∧ Event.begun ∉ evs ∧ evs.filter Event.isArrival = passEvents passes

/-! ## Encodings -/

/-- R99, R85, R98: decoding an encoded well-formed instruction that the host can send gives it back. -/
def Obligations.DecodeOfEncodeIsIdentity : Prop :=
  ∀ (c : Cfg) (i : Instr), c.wf = true → i.inbound = true → i.wf c = true → decode c (encode c i) = .ok i

/-- R81, R149: bytes that decode, with nothing after the frame, are the encoding of the instruction they decode to, and that
instruction is well-formed. -/
def Obligations.EncodeOfDecodeIsIdentity : Prop :=
  ∀ (c : Cfg) (bytes : Bytes) (i : Instr), c.wf = true → decode c bytes = .ok i →
    bytes.length = declaredLen bytes + 10 → encode c i = bytes ∧ i.wf c = true

/-- R99: the mux gives the first row of the opcode table that matches. -/
def Obligations.MuxIsFirstMatchingRow : Prop :=
  ∀ (c : Cfg) (fr : Frame), c.wf = true → firstRow c fr = some (mux c fr).mnemonic

/-- R65 (a derived rule of the spec): a frame the block has sent, fed back to it, is ignored if it decodes at all. -/
def Obligations.LoopedBackFramesAreIgnored : Prop :=
  ∀ (c : Cfg) (bytes : Bytes) (i : Instr), c.wf = true → IsOutboundFrame c bytes → decode c bytes = .ok i →
    ∀ s : State, exec i s = .next s

/-- R56, R81, R83: the layout of a frame. -/
def Obligations.FrameLayout : Prop :=
  ∀ (c : Cfg) (v t : Byte) (p : Bytes), c.wf = true → p.length ≤ 255 →
    (frameBytes c v t p).length = p.length + 10 ∧ slice (frameBytes c v t p) 0 6 = c.magic ∧
      byteAt (frameBytes c v t p) 6 = v ∧ byteAt (frameBytes c v t p) 7 = t ∧
      (byteAt (frameBytes c v t p) 8).toNat = p.length ∧ slice (frameBytes c v t p) 9 (9 + p.length) = p ∧
      byteAt (frameBytes c v t p) (9 + p.length) = sum8 (slice (frameBytes c v t p) 0 (9 + p.length))

/-- The frames of the table in 95_test_vectors.md, under `Cfg_ref` (log entry 2), decode to their instructions. -/
def Obligations.WrittenOutWordsDecode : Prop :=
  (decode Cfg.ref [0x49, 0x4D, 0x50, 0x52, 0x4F, 0x56, 0x01, 0x03, 0x01, 0x03, 0xE5]).toOption
      = some (.rpcRequestInfo []) ∧
    (decode Cfg.ref [0x49, 0x4D, 0x50, 0x52, 0x4F, 0x56, 0x01, 0x03, 0x01, 0x99, 0x7B]).toOption
      = some (.rpcUnknown 0x99 []) ∧
    (decode Cfg.ref [0x49, 0x4D, 0x50, 0x52, 0x4F, 0x56, 0x02, 0x03, 0x01, 0x03, 0xE6]).toOption
      = some (.rpcForeignVersion 0x02 [0x03]) ∧
    (decode Cfg.ref [0x49, 0x4D, 0x50, 0x52, 0x4F, 0x56, 0x01, 0x01, 0x01, 0x02, 0xE2]).toOption
      = some (.rxCurrentState 0x01 [0x02])

/-- R88, whose last sentence the spec derives: a reader of a string list gets its strings back: the encoding of lists of strings of at most 255 bytes is
injective. -/
def Obligations.StringListsAreReadable : Prop :=
  ∀ l l' : List Bytes, (∀ x ∈ l, x.length ≤ 255) → (∀ x ∈ l', x.length ≤ 255) → sl l = sl l' → l = l'

/-- R221, R250, R251 (sentences the spec derives): a result is sent if and only if its strings, each cut to 255 bytes and
with its length byte, total at most 255 bytes; a list with a string that was cut is never sent. That no list is ever
shortened to fit is a choice: the spec's decision D19 (log entry 19, DEDUCED). -/
def Obligations.ResultSentIffItFits : Prop :=
  ∀ (l : List Bytes) (s t : State), exec (.txRpcResult l) s = .next t →
    t.txFrames = s.txFrames ++
      (if (l.map fun x => 1 + min x.length 255).sum ≤ 255
       then [frameBytes s.cfg s.cfg.protoVersion s.cfg.typeRpcResult (l.flatMap lenPrefixed)] else []) ∧
    t.logs = s.logs ++ List.replicate (l.countP fun x => decide (255 < x.length)) .stringTruncated ++
      (if (l.map fun x => 1 + min x.length 255).sum ≤ 255 then [] else [.encoderOversize]) ∧
    ((∃ x ∈ l, 255 < x.length) → t.txFrames = s.txFrames)

/-- R172: the decimal text of an integer stands for it, is a numeral with no leading zero, and is never empty. The format
is a choice: the spec's decision D21 (log entry 11). -/
def Obligations.DecimalTextReadsBack : Prop :=
  ∀ n : Int, readDec (dec n) = n ∧ isDecText (dec n) = true ∧ dec n ≠ []

/-- R83, R230: `sum8` is the plain sum modulo 256, in whatever order the bytes are added. -/
def Obligations.ChecksumIsPlainSum : Prop :=
  (∀ s : Bytes, (sum8 s).toNat = (s.map BitVec.toNat).sum % 256) ∧
    ∀ s t : Bytes, s.Perm t → sum8 s = sum8 t

/-! ## Streams of bytes -/

/-- R224 (a derived rule of the spec): the bytes of an encoded frame of at most 200 payload bytes, fed one by one to an empty block, give one dispatch of
that frame at the last byte and an empty accumulator; those of a longer one are rejected at the ninth byte. -/
def Obligations.EncodedFrameIsDispatchedOnce : Prop :=
  ∀ (v t : Byte) (p : Bytes) (s : State) (rest : List EnvOp), s.cfg.wf = true → s.acc = [] →
    s.env.schedule = feedsOf (frameBytes s.cfg v t p) ++ rest →
    (p.length ≤ 200 →
      runSteps (p.length + 10) s = dispatch ⟨v, t, p⟩
        { s with
          trace := s.trace ++ (frameBytes s.cfg v t p).map Event.feed
          env := { s.env with schedule := rest } }) ∧
    (200 < p.length → p.length ≤ 255 →
      runSteps 9 s = .next
        { s with
          trace := s.trace ++ ((frameBytes s.cfg v t p).take 9).map Event.feed ++ [.log .lengthTooLarge]
          env := { s.env with schedule := feedsOf ((frameBytes s.cfg v t p).drop 9) ++ rest } })

/-- R225 (a derived rule of the spec): a frame of at most 200 payload bytes in which exactly one byte at an offset of 6 or more, other than 8, is changed
emits no frame and ends with `ChecksumMismatch`. -/
def Obligations.SingleByteCorruptionIsRejected : Prop :=
  ∀ (v t : Byte) (p : Bytes) (k : Nat) (x : Byte) (s : State) (rest : List EnvOp), s.cfg.wf = true → s.acc = [] →
    p.length ≤ 200 → 6 ≤ k → k ≠ 8 → k < p.length + 10 → x ≠ byteAt (frameBytes s.cfg v t p) k →
    s.env.schedule = feedsOf ((frameBytes s.cfg v t p).set k x) ++ rest →
      runSteps (p.length + 10) s = .next
        { s with
          trace := s.trace ++ ((frameBytes s.cfg v t p).set k x).map Event.feed ++ [.log .checksumMismatch]
          env := { s.env with schedule := rest } }

/-- R124 (a derived rule of the spec): while no occurrence of `MAGIC` that starts in the stream has its nine bytes complete, the accumulator holds the
last eight bytes (all of a shorter stream), and nothing else has happened. -/
def Obligations.UnalignedStreamKeepsLastEight : Prop :=
  ∀ (stream : Bytes) (s : State) (rest : List EnvOp), s.cfg.wf = true → s.acc = [] →
    s.env.schedule = feedsOf stream ++ rest → (∀ q, q + 9 ≤ stream.length → ¬ magicAt s.cfg stream q) →
    runSteps stream.length s = .next
      { s with
        acc := stream.drop (stream.length - 8)
        trace := s.trace ++ stream.map Event.feed
        env := { s.env with schedule := rest } }

/-- R124 (a derived rule of the spec): the block locks on to the first occurrence of `MAGIC`: any garbage followed by an encoded instruction, with no
occurrence of `MAGIC` that starts in the garbage, runs exactly that instruction, at the last byte. -/
def Obligations.GarbageThenFrameRunsTheFrame : Prop :=
  ∀ (garbage : Bytes) (i : Instr) (s : State) (rest : List EnvOp), s.cfg.wf = true → s.acc = [] →
    i.inbound = true → i.wf s.cfg = true →
    s.env.schedule = feedsOf (garbage ++ encode s.cfg i) ++ rest →
    (∀ q, q < garbage.length → ¬ magicAt s.cfg (garbage ++ encode s.cfg i) q) →
      runSteps (garbage.length + (encode s.cfg i).length) s = exec i
        { s with
          trace := s.trace ++ (garbage ++ encode s.cfg i).map Event.feed
          env := { s.env with schedule := rest } }

/-- R286 (a derived rule of the spec): after a header whose length byte is at most 200 the block takes up to `length` further bytes, whatever they are,
without any other effect; the next one empties the accumulator unless the dispatch it starts never ends. -/
def Obligations.FalseLockSwallowsTheDeclaredLength : Prop :=
  ∀ (v t len : Byte) (bytes : Bytes) (s : State) (rest : List EnvOp), s.cfg.wf = true → s.acc = [] →
    len.toNat ≤ 200 → s.env.schedule = feedsOf (s.cfg.magic ++ [v, t, len] ++ bytes) ++ rest →
    (bytes.length ≤ len.toNat →
      runSteps (9 + bytes.length) s = .next
        { s with
          acc := s.cfg.magic ++ [v, t, len] ++ bytes
          trace := s.trace ++ (s.cfg.magic ++ [v, t, len] ++ bytes).map Event.feed
          env := { s.env with schedule := rest } }) ∧
    (bytes.length = len.toNat + 1 → ∀ u, runSteps (9 + bytes.length) s = .next u → u.acc = [])
end

