-- ==== Sys2Proof/Laws/Bytes.lean ====
section
/-! SUPPORT. Laws of byte sequences: reading, slicing, the checksum, strings and string lists. -/

namespace Sys2Proof

/-! ## Reading and slicing -/

theorem byteAt_append_left (s t : Bytes) (i : Nat) (h : i < s.length) : byteAt (s ++ t) i = byteAt s i := by
  simp [byteAt, List.getD, List.getElem?_append_left h]

theorem byteAt_append_right (s t : Bytes) (i : Nat) (h : s.length ≤ i) :
    byteAt (s ++ t) i = byteAt t (i - s.length) := by
  simp [byteAt, List.getD, List.getElem?_append_right h]

@[simp] theorem byteAt_cons_zero (b : Byte) (s : Bytes) : byteAt (b :: s) 0 = b := rfl

@[simp] theorem byteAt_cons_succ (b : Byte) (s : Bytes) (i : Nat) : byteAt (b :: s) (i + 1) = byteAt s i := by
  simp [byteAt]

theorem slice_length (s : Bytes) (a b : Nat) (h : b ≤ s.length) : (slice s a b).length = b - a := by
  simp only [slice, List.length_take, List.length_drop]; omega

theorem slice_append_left (s t : Bytes) (a b : Nat) (h : b ≤ s.length) : slice (s ++ t) a b = slice s a b := by
  unfold slice
  by_cases ha : a ≤ s.length
  · rw [List.drop_append_of_le_length ha, List.take_append_of_le_length (by simp; omega)]
  · have : b - a = 0 := by omega
    simp [this]

theorem slice_zero_length (s : Bytes) : slice s 0 s.length = s := by simp [slice]

theorem slice_append_right (s t : Bytes) (b : Nat) : slice (s ++ t) s.length (s.length + b) = t.take b := by
  simp [slice]

/-! ## The checksum -/

@[simp] theorem sum8_nil : sum8 [] = 0 := rfl

theorem sum8_cons (b : Byte) (s : Bytes) : sum8 (b :: s) = b + sum8 s := by
  apply BitVec.eq_of_toNat_eq
  simp [sum8, BitVec.toNat_add]

theorem sum8_append (s t : Bytes) : sum8 (s ++ t) = sum8 s + sum8 t := by
  induction s with
  | nil => simp
  | cons b s ih => rw [List.cons_append, sum8_cons, sum8_cons, ih, BitVec.add_assoc]

/-- A change of one summed byte changes the checksum (the fact behind R225). -/
theorem sum8_set_ne (s : Bytes) (k : Nat) (b : Byte) (hk : k < s.length) (hb : b ≠ byteAt s k) :
    sum8 (s.set k b) ≠ sum8 s := by
  induction s generalizing k with
  | nil => simp at hk
  | cons x s ih =>
    cases k with
    | zero =>
      intro h
      rw [List.set_cons_zero, sum8_cons, sum8_cons] at h
      exact hb (by simpa using h)
    | succ k =>
      intro h
      rw [List.set_cons_succ, sum8_cons, sum8_cons] at h
      exact ih k (by simpa using hk) (by simpa using hb) (by simpa using h)

/-! ## Strings and string lists -/

theorem lenPrefixed_length (s : Bytes) : (lenPrefixed s).length = 1 + min s.length strMax := by
  simp [lenPrefixed, Nat.min_comm]; omega

theorem lenPrefixed_of_le (s : Bytes) (h : s.length ≤ strMax) : lenPrefixed s = BitVec.ofNat 8 s.length :: s := by
  simp [lenPrefixed, Nat.min_eq_left h, List.take_of_length_le h]

@[simp] theorem sl_nil : sl [] = [] := rfl

@[simp] theorem sl_cons (s : Bytes) (l : List Bytes) : sl (s :: l) = lenPrefixed s ++ sl l := rfl

theorem sl_length (l : List Bytes) : (sl l).length = slSize l := by
  induction l with
  | nil => rfl
  | cons s l ih => simp [slSize, lenPrefixed_length, ih]

/-! ## Frames -/

theorem frameBody_length (c : Cfg) (v t : Byte) (p : Bytes) (hm : c.magic.length = 6) :
    (frameBody c v t p).length = 9 + p.length := by
  simp [frameBody, hm]; omega

theorem frameBytes_length (c : Cfg) (v t : Byte) (p : Bytes) (hm : c.magic.length = 6) :
    (frameBytes c v t p).length = 10 + p.length := by
  simp [frameBytes, frameBody_length c v t p hm]; omega

end Sys2Proof
end

