-- ==== Sys2Proof/Laws/Codec.lean ====
section
/-! SUPPORT. Laws of the decoder, the mux and the encoder. -/

namespace Sys2Proof

/-! ## What a well-formed configuration gives -/

theorem Cfg.wf_magic {c : Cfg} (h : c.wf = true) : c.magic.length = 6 := by
  simp only [Cfg.wf, Bool.and_eq_true, decide_eq_true_eq] at h
  exact h.1.1.1.1.1.1

theorem Cfg.wf_types {c : Cfg} (h : c.wf = true) : c.typeCodes.Nodup := by
  simp only [Cfg.wf, Bool.and_eq_true, decide_eq_true_eq] at h
  exact h.1.1.1.1.1.2

theorem Cfg.wf_cmds {c : Cfg} (h : c.wf = true) : c.cmdIds.Nodup := by
  simp only [Cfg.wf, Bool.and_eq_true, decide_eq_true_eq] at h
  exact h.1.1.1.1.2

theorem Cfg.wf_reserved {c : Cfg} (h : c.wf = true) : reservedCmd ∉ c.cmdIds := by
  simp only [Cfg.wf, Bool.and_eq_true, decide_eq_true_eq] at h
  exact h.1.1.1.2

theorem Cfg.wf_states {c : Cfg} (h : c.wf = true) : c.stateCodes.Nodup := by
  simp only [Cfg.wf, Bool.and_eq_true, decide_eq_true_eq] at h
  exact h.1.1.2

theorem Cfg.wf_errs {c : Cfg} (h : c.wf = true) : c.errCodes.Nodup := by
  simp only [Cfg.wf, Bool.and_eq_true, decide_eq_true_eq] at h
  exact h.1.2

/-! ## The header bytes of a frame -/

section Header

variable (c : Cfg) (v t : Byte) (p rest : Bytes) (hm : c.magic.length = 6)
include hm

/-- A frame body as magic and tail, the form in which its bytes are read. -/
theorem body_read (k : Nat) :
    byteAt (frameBody c v t p ++ rest) (6 + k) = byteAt (v :: t :: BitVec.ofNat 8 p.length :: (p ++ rest)) k := by
  have : frameBody c v t p ++ rest = c.magic ++ (v :: t :: BitVec.ofNat 8 p.length :: (p ++ rest)) := by
    simp [frameBody]
  rw [this, byteAt_append_right _ _ _ (by omega), hm]
  congr 1
  omega

theorem body_version : byteAt (frameBody c v t p ++ rest) 6 = v := body_read c v t p rest hm 0

theorem body_type : byteAt (frameBody c v t p ++ rest) 7 = t := body_read c v t p rest hm 1

theorem body_lengthByte : byteAt (frameBody c v t p ++ rest) 8 = BitVec.ofNat 8 p.length := body_read c v t p rest hm 2

theorem body_declaredLen (hp : p.length ≤ 255) : declaredLen (frameBody c v t p ++ rest) = p.length := by
  rw [declaredLen, body_lengthByte c v t p rest hm]
  simp; omega

theorem body_magic : slice (frameBody c v t p ++ rest) 0 magicLen = c.magic := by
  simp only [slice, magicLen, frameBody, List.append_assoc, List.drop_zero, Nat.sub_zero, ← hm]
  exact List.take_left' rfl

theorem body_payload : slice (frameBody c v t p ++ rest) 9 (9 + p.length) = p := by
  have h : frameBody c v t p ++ rest = (c.magic ++ [v, t, BitVec.ofNat 8 p.length]) ++ (p ++ rest) := by
    simp [frameBody]
  have hl : (c.magic ++ [v, t, BitVec.ofNat 8 p.length]).length = 9 := by simp [hm]
  rw [h, ← hl, slice_append_right]
  simp

theorem body_prefix : slice (frameBody c v t p ++ rest) 0 (9 + p.length) = frameBody c v t p := by
  rw [← frameBody_length c v t p hm, slice_append_left _ _ _ _ (le_refl _), slice_zero_length]

end Header

/-- The verdict on a buffer that begins with the body of a frame of at most 200 payload bytes and is one byte longer: the
frame if that byte is the checksum, else `ChecksumMismatch` (R143 to R146). -/
theorem checkFrame_body (c : Cfg) (v t : Byte) (p : Bytes) (x : Byte) (hm : c.magic.length = 6)
    (hp : p.length ≤ lenCeiling) :
    checkFrame c (frameBody c v t p ++ [x]) =
      if sum8 (frameBody c v t p) = x then .ok ⟨v, t, p⟩ else .error .checksumMismatch := by
  have hp' : p.length ≤ 200 := hp
  have hl := frameBody_length c v t p hm
  have hd := body_declaredLen c v t p [x] hm (by omega)
  have hx : byteAt (frameBody c v t p ++ [x]) (9 + p.length) = x := by
    rw [byteAt_append_right _ _ _ (by omega), hl]; simp
  unfold checkFrame
  simp only [expectedSize, hd, hdrLen, csumLen, lenCeiling, Nat.add_sub_cancel]
  rw [if_neg (by simp [hl]; omega), if_neg (by rw [body_magic c v t p [x] hm]; simp), if_neg (by omega),
    if_neg (by simp [hl])]
  rw [body_prefix c v t p [x] hm, hx, body_version c v t p [x] hm, body_type c v t p [x] hm,
    body_payload c v t p [x] hm]
  by_cases h : sum8 (frameBody c v t p) = x <;> simp [h]

/-- A frame of at most 200 payload bytes is accepted and gives back its fields (R146). -/
theorem checkFrame_frameBytes (c : Cfg) (v t : Byte) (p : Bytes) (hm : c.magic.length = 6)
    (hp : p.length ≤ lenCeiling) : checkFrame c (frameBytes c v t p) = .ok ⟨v, t, p⟩ := by
  simp [frameBytes, checkFrame_body c v t p _ hm hp]

/-- What an accepted buffer looks like (R140 to R147). -/
theorem checkFrame_ok {c : Cfg} {acc : Bytes} {fr : Frame} (h : checkFrame c acc = .ok fr) :
    9 ≤ acc.length ∧ slice acc 0 6 = c.magic ∧ declaredLen acc ≤ 200 ∧ 10 + declaredLen acc ≤ acc.length ∧
      sum8 (slice acc 0 (9 + declaredLen acc)) = byteAt acc (9 + declaredLen acc) ∧
      fr = ⟨byteAt acc 6, byteAt acc 7, slice acc 9 (9 + declaredLen acc)⟩ := by
  unfold checkFrame at h
  simp only [expectedSize, hdrLen, csumLen, lenCeiling, magicLen, Nat.add_sub_cancel] at h
  split at h
  · cases h
  split at h
  · cases h
  split at h
  · cases h
  split at h
  · cases h
  split at h
  · cases h
  · rename_i h1 h2 h3 h4 h5
    refine ⟨by omega, by simpa using h2, by omega, by omega, by simpa using h5, ?_⟩
    injection h with h
    exact h.symm

/-- An accepted buffer exactly as long as its frame is that frame's bytes (R81, R149). -/
theorem accepted_bytes {c : Cfg} {bytes : Bytes} {fr : Frame} (h : checkFrame c bytes = .ok fr)
    (hl : bytes.length = declaredLen bytes + 10) :
    bytes = frameBytes c fr.version fr.type fr.payload ∧ fr.payload.length = declaredLen bytes := by
  obtain ⟨h1, h2, h3, h4, h5, rfl⟩ := checkFrame_ok h
  have hp : (slice bytes 9 (9 + declaredLen bytes)).length = declaredLen bytes := by
    rw [slice_length _ _ _ (by omega)]; omega
  refine ⟨?_, hp⟩
  have hbody : slice bytes 0 (9 + declaredLen bytes) =
      frameBody c (byteAt bytes 6) (byteAt bytes 7) (slice bytes 9 (9 + declaredLen bytes)) := by
    rw [frameBody, hp, ← h2]
    have h8 : BitVec.ofNat 8 (declaredLen bytes) = byteAt bytes 8 := by simp [declaredLen]
    rw [h8]
    apply List.ext_getElem?
    intro k
    have e6 : slice bytes 0 6 = bytes.take 6 := by simp [slice]
    have e3 : [byteAt bytes 6, byteAt bytes 7, byteAt bytes 8] = (bytes.drop 6).take 3 := by
      apply List.ext_getElem
      · simp; omega
      · intro n hn hn'
        simp at hn
        interval_cases n <;> simp [byteAt, List.getD]
        all_goals (rw [List.getElem?_eq_getElem (by omega)]; simp)
    rw [e6, e3]
    have e9 : bytes.take 6 ++ (bytes.drop 6).take 3 = bytes.take 9 := by
      rw [← List.take_add]
    rw [e9, slice, slice, ]
    simp only [List.drop_zero, Nat.sub_zero, Nat.add_sub_cancel_left]
    rw [← List.take_add]
  rw [frameBytes, ← hbody, h5]
  have : bytes.length = (9 + declaredLen bytes) + 1 := by omega
  conv_lhs => rw [← List.take_append_drop (9 + declaredLen bytes) bytes]
  congr 1
  apply List.ext_getElem
  · simp; omega
  · intro n hn hn'
    simp at hn'
    subst hn'
    simp [byteAt, List.getD]
    rw [List.getElem?_eq_getElem (by omega)]; simp

/-! ## The mux -/

/-- The mux gives every well-formed inbound instruction back from its frame (R160 to R163, R99). -/
theorem muxCommand_ids {c : Cfg} (h : c.wf = true) (args : Bytes) :
    muxCommand c c.cmdRequestState args = .rpcRequestState args ∧
      muxCommand c c.cmdRequestInfo args = .rpcRequestInfo args ∧
      muxCommand c c.cmdRequestScan args = .rpcRequestScan args ∧
      muxCommand c c.cmdSendWifi args = .rpcSendWiFi args := by
  have h := Cfg.wf_cmds h
  simp only [Cfg.cmdIds, List.nodup_cons, List.mem_cons, List.not_mem_nil, or_false, not_or] at h
  obtain ⟨⟨h1, h2, h3⟩, ⟨h4, h5⟩, h6, -⟩ := h
  refine ⟨by simp [muxCommand], ?_, ?_, ?_⟩
  · simp [muxCommand, Ne.symm h4]
  · simp [muxCommand, Ne.symm h5, Ne.symm h6]
  · simp [muxCommand, h1, h2, h3]

theorem muxCommand_unknown {c : Cfg} (cmd : Byte) (args : Bytes) (h : cmd ∉ c.cmdIds) :
    muxCommand c cmd args = .rpcUnknown cmd args := by
  simp only [Cfg.cmdIds, List.mem_cons, List.not_mem_nil, or_false, not_or] at h
  simp [muxCommand, h.1, h.2.1, h.2.2.1, h.2.2.2]

/-- No bit of a decoded frame is dropped: the instruction's frame is the frame it came from (R99). -/
theorem mux_frame (c : Cfg) (fr : Frame) : (mux c fr).frame c = fr := by
  obtain ⟨v, t, p⟩ := fr
  unfold mux
  dsimp only
  by_cases h : t = c.typeRpc
  · rw [if_neg (by simpa using h)]
    by_cases hv : v = c.protoVersion
    · rw [if_neg (by simpa using hv)]
      subst h; subst hv
      cases p with
      | nil => rfl
      | cons k a =>
        unfold muxCommand
        dsimp only
        split
        · subst k; rfl
        split
        · subst k; rfl
        split
        · subst k; rfl
        split
        · subst k; rfl
        · rfl
    · rw [if_pos hv]; subst h; rfl
  · rw [if_pos h]
    unfold muxNonRpc
    dsimp only
    split
    · subst t; rfl
    split
    · subst t; rfl
    split
    · subst t; rfl
    · rfl

/-- What the mux gives for an accepted frame is well-formed. -/
theorem mux_wf (c : Cfg) (fr : Frame) (hp : fr.payload.length ≤ 200) : (mux c fr).wf c = true := by
  obtain ⟨v, t, p⟩ := fr
  change p.length ≤ 200 at hp
  have hd : decide (p.length ≤ lenCeiling) = true := decide_eq_true hp
  unfold mux
  dsimp only
  by_cases h : t = c.typeRpc
  · rw [if_neg (by simpa using h)]
    by_cases hv : v = c.protoVersion
    · rw [if_neg (by simpa using hv)]
      cases p with
      | nil => rfl
      | cons k a =>
        have ha : decide (a.length ≤ argsMax) = true := decide_eq_true (by simp [argsMax, lenCeiling] at *; omega)
        unfold muxCommand
        dsimp only
        repeat (split; · exact ha)
        simp only [Instr.wf, ha, Cfg.cmdIds, Bool.and_true]
        simp [*]
    · rw [if_pos hv]; simp only [Instr.wf, hd, Bool.and_true]; simpa using hv
  · rw [if_pos h]
    unfold muxNonRpc
    dsimp only
    repeat (split; · exact hd)
    simp only [Instr.wf, hd, Bool.and_true, Cfg.typeCodes]
    simp [*]

/-- A well-formed inbound instruction has a payload the decoder accepts (R142). -/
theorem Instr.wf_payload_le {c : Cfg} {i : Instr} (hi : i.inbound = true) (hw : i.wf c = true) : (i.frame c).payload.length ≤ 200 := by
  have cons : ∀ (k : Byte) {a : Bytes}, a.length ≤ argsMax → (k :: a).length ≤ 200 := fun k a h => Nat.succ_le_succ h
  cases i with
  | rxCurrentState v p => exact of_decide_eq_true hw
  | rxErrorState v p => exact of_decide_eq_true hw
  | rxRpcResult v p => exact of_decide_eq_true hw
  | rpcEmpty => exact Nat.zero_le _
  | rpcSendWiFi a => exact cons _ (of_decide_eq_true hw)
  | rpcRequestState a => exact cons _ (of_decide_eq_true hw)
  | rpcRequestInfo a => exact cons _ (of_decide_eq_true hw)
  | rpcRequestScan a => exact cons _ (of_decide_eq_true hw)
  | rpcUnknown k a => exact cons _ (of_decide_eq_true ((Bool.and_eq_true _ _).mp hw).2)
  | rpcForeignVersion v p => exact of_decide_eq_true ((Bool.and_eq_true _ _).mp hw).2
  | rxUnassignedType v t p => exact of_decide_eq_true ((Bool.and_eq_true _ _).mp hw).2
  | txCurrentState d => cases hi
  | txErrorState d => cases hi
  | txRpcResult d => cases hi

end Sys2Proof
end

