-- ==== Sys2Proof/Laws/Decimal.lean ====
section
/-! SUPPORT. Laws of decimal text (R172): what `dec` writes is a decimal numeral with no leading zero. -/

namespace Sys2Proof

theorem digitByte_toNat (n : Nat) : (digitByte n).toNat = 0x30 + n % 10 := by
  simp [digitByte]; omega

theorem decDigits_ne_nil (fuel n : Nat) : decDigits fuel n ≠ [] := by
  cases fuel with
  | zero => simp [decDigits]
  | succ fuel => unfold decDigits; split <;> simp

theorem decDigits_all_digits (fuel n : Nat) : ∀ b ∈ decDigits fuel n, 0x30 ≤ b.toNat ∧ b.toNat ≤ 0x39 := by
  have digit : ∀ m, ∀ b ∈ [digitByte m], 0x30 ≤ b.toNat ∧ b.toNat ≤ 0x39 := by
    intro m b hb
    have := digitByte_toNat m
    simp only [List.mem_singleton] at hb
    subst hb
    omega
  induction fuel generalizing n with
  | zero => exact digit n
  | succ fuel ih =>
    unfold decDigits
    split
    · exact digit n
    · intro b hb
      rcases List.mem_append.1 hb with h | h
      · exact ih _ b h
      · exact digit n b h

theorem decDigits_head (fuel n : Nat) (hf : n ≤ fuel) (hn : 0 < n) : (decDigits fuel n).headD 0 ≠ 0x30 := by
  induction fuel generalizing n with
  | zero => omega
  | succ fuel ih =>
    unfold decDigits
    split
    · rename_i h
      intro h0
      have := congrArg BitVec.toNat h0
      simp only [List.headD_cons, digitByte_toNat] at this
      simp at this
      omega
    · have h := ih (n / 10) (by omega) (by omega)
      have hne := decDigits_ne_nil fuel (n / 10)
      revert h hne
      cases decDigits fuel (n / 10) with
      | nil => simp
      | cons b l => simp

theorem decDigits_length_one (fuel n : Nat) (hn : n < 10) : (decDigits fuel n).length = 1 := by
  cases fuel with
  | zero => rfl
  | succ fuel => simp [decDigits, hn]

theorem isNatText_decNat (n : Nat) : isNatText (decNat n) = true := by
  have hne := decDigits_ne_nil n n
  have hall := decDigits_all_digits n n
  simp only [isNatText, decNat, Bool.and_eq_true, Bool.or_eq_true, List.all_eq_true, decide_eq_true_eq,
    beq_iff_eq, bne_iff_ne, Bool.not_eq_true', List.isEmpty_eq_false_iff]
  refine ⟨⟨hne, hall⟩, ?_⟩
  by_cases h : n < 10
  · exact Or.inl (decDigits_length_one n n h)
  · exact Or.inr (decDigits_head n n (le_refl n) (by omega))

theorem decNat_head_ne_minus (n : Nat) (t : Bytes) : decNat n ≠ 0x2D :: t := by
  intro h
  have := decDigits_all_digits n n 0x2D (by unfold decNat at h; simp [h])
  simp at this

theorem decNat_succ_ne_zero (n : Nat) : decNat (n + 1) ≠ [0x30] := by
  intro h
  have := decDigits_head (n + 1) (n + 1) (le_refl _) (by omega)
  unfold decNat at h
  simp [h] at this

/-- `dec` writes decimal text (R172). -/
theorem isDecText_dec (n : Int) : isDecText (dec n) = true := by
  cases n with
  | ofNat n =>
    have h := isNatText_decNat n
    have hm := decNat_head_ne_minus n
    unfold dec isDecText
    split
    · rename_i t ht
      exact absurd ht (hm t)
    · exact h
  | negSucc n =>
    have h := isNatText_decNat (n + 1)
    have hz := decNat_succ_ne_zero n
    change (isNatText (decNat (n + 1)) && decNat (n + 1) != [0x30]) = true
    rw [h, Bool.true_and, bne_iff_ne]
    exact hz

end Sys2Proof
end

