-- ==== Sys2Proof/Laws/State.lean ====
section
/-! SUPPORT. One lemma per field per update of the state, true by rfl, and the projections of the trace. -/

namespace Sys2Proof.Machine

variable (s : State)

@[simp] theorem setAcc_acc (a : Bytes) : (s.setAcc a).acc = a := rfl
@[simp] theorem setAcc_devState (a : Bytes) : (s.setAcc a).devState = s.devState := rfl
@[simp] theorem setAcc_errState (a : Bytes) : (s.setAcc a).errState = s.errState := rfl
@[simp] theorem setAcc_trace (a : Bytes) : (s.setAcc a).trace = s.trace := rfl
@[simp] theorem setAcc_cfg (a : Bytes) : (s.setAcc a).cfg = s.cfg := rfl
@[simp] theorem setAcc_env (a : Bytes) : (s.setAcc a).env = s.env := rfl

@[simp] theorem setDev_acc (d : DevState) : (s.setDev d).acc = s.acc := rfl
@[simp] theorem setDev_devState (d : DevState) : (s.setDev d).devState = d := rfl
@[simp] theorem setDev_errState (d : DevState) : (s.setDev d).errState = s.errState := rfl
@[simp] theorem setDev_trace (d : DevState) : (s.setDev d).trace = s.trace := rfl
@[simp] theorem setDev_cfg (d : DevState) : (s.setDev d).cfg = s.cfg := rfl
@[simp] theorem setDev_env (d : DevState) : (s.setDev d).env = s.env := rfl

@[simp] theorem setErr_acc (e : ErrState) : (s.setErr e).acc = s.acc := rfl
@[simp] theorem setErr_devState (e : ErrState) : (s.setErr e).devState = s.devState := rfl
@[simp] theorem setErr_errState (e : ErrState) : (s.setErr e).errState = e := rfl
@[simp] theorem setErr_trace (e : ErrState) : (s.setErr e).trace = s.trace := rfl
@[simp] theorem setErr_cfg (e : ErrState) : (s.setErr e).cfg = s.cfg := rfl
@[simp] theorem setErr_env (e : ErrState) : (s.setErr e).env = s.env := rfl

@[simp] theorem record_acc (e : Event) : (s.record e).acc = s.acc := rfl
@[simp] theorem record_devState (e : Event) : (s.record e).devState = s.devState := rfl
@[simp] theorem record_errState (e : Event) : (s.record e).errState = s.errState := rfl
@[simp] theorem record_trace (e : Event) : (s.record e).trace = s.trace ++ [e] := rfl
@[simp] theorem record_cfg (e : Event) : (s.record e).cfg = s.cfg := rfl
@[simp] theorem record_env (e : Event) : (s.record e).env = s.env := rfl

@[simp] theorem log_acc (g : LogTag) : (s.log g).acc = s.acc := rfl
@[simp] theorem log_devState (g : LogTag) : (s.log g).devState = s.devState := rfl
@[simp] theorem log_errState (g : LogTag) : (s.log g).errState = s.errState := rfl
@[simp] theorem log_trace (g : LogTag) : (s.log g).trace = s.trace ++ [Event.log g] := rfl
@[simp] theorem log_cfg (g : LogTag) : (s.log g).cfg = s.cfg := rfl
@[simp] theorem log_env (g : LogTag) : (s.log g).env = s.env := rfl

@[simp] theorem call_acc (e : Event) : (s.call e).acc = s.acc := rfl
@[simp] theorem call_devState (e : Event) : (s.call e).devState = s.devState := rfl
@[simp] theorem call_errState (e : Event) : (s.call e).errState = s.errState := rfl
@[simp] theorem call_trace (e : Event) : (s.call e).trace = s.trace ++ [e] := rfl
@[simp] theorem call_cfg (e : Event) : (s.call e).cfg = s.cfg := rfl
@[simp] theorem call_env (e : Event) : (s.call e).env = { s.env with callsLeft := s.env.callsLeft.spend } := rfl

@[simp] theorem transmit_acc (b : Bytes) : (s.transmit b).acc = s.acc := rfl
@[simp] theorem transmit_devState (b : Bytes) : (s.transmit b).devState = s.devState := rfl
@[simp] theorem transmit_errState (b : Bytes) : (s.transmit b).errState = s.errState := rfl
@[simp] theorem transmit_trace (b : Bytes) : (s.transmit b).trace = s.trace ++ [Event.tx b] := rfl
@[simp] theorem transmit_cfg (b : Bytes) : (s.transmit b).cfg = s.cfg := rfl
@[simp] theorem transmit_env (b : Bytes) : (s.transmit b).env = { s.env with callsLeft := s.env.callsLeft.spend } := rfl

@[simp] theorem askStatus_acc : (s.askStatus).acc = s.acc := rfl
@[simp] theorem askStatus_devState : (s.askStatus).devState = s.devState := rfl
@[simp] theorem askStatus_errState : (s.askStatus).errState = s.errState := rfl
@[simp] theorem askStatus_trace : (s.askStatus).trace = s.trace ++ [Event.netStatus s.nextStatus] := rfl
@[simp] theorem askStatus_cfg : (s.askStatus).cfg = s.cfg := rfl
@[simp] theorem askStatus_env : (s.askStatus).env = { s.env.popStatus with callsLeft := s.env.popStatus.callsLeft.spend } := rfl

@[simp] theorem askScan_acc : (s.askScan).acc = s.acc := rfl
@[simp] theorem askScan_devState : (s.askScan).devState = s.devState := rfl
@[simp] theorem askScan_errState : (s.askScan).errState = s.errState := rfl
@[simp] theorem askScan_trace : (s.askScan).trace = s.trace ++ [Event.netScan s.nextScan] := rfl
@[simp] theorem askScan_cfg : (s.askScan).cfg = s.cfg := rfl
@[simp] theorem askScan_env : (s.askScan).env = { s.env.popScan with callsLeft := s.env.popScan.callsLeft.spend } := rfl

@[simp] theorem askConnect_acc (x y : Bytes) : (s.askConnect x y).acc = s.acc := rfl
@[simp] theorem askConnect_devState (x y : Bytes) : (s.askConnect x y).devState = s.devState := rfl
@[simp] theorem askConnect_errState (x y : Bytes) : (s.askConnect x y).errState = s.errState := rfl
@[simp] theorem askConnect_cfg (x y : Bytes) : (s.askConnect x y).cfg = s.cfg := rfl
@[simp] theorem askConnect_trace (x y : Bytes) : (s.askConnect x y).trace =
    s.trace ++ [Event.netConnect x y connectAttempts s.cfg.retryDelay s.nextConnect] := rfl
@[simp] theorem askConnect_env (x y : Bytes) : (s.askConnect x y).env =
    { s.env.popConnect with callsLeft := s.env.popConnect.callsLeft.spend } := rfl

@[simp] theorem askCred_acc (k : Bytes) : (s.askCred k).acc = s.acc := rfl
@[simp] theorem askCred_devState (k : Bytes) : (s.askCred k).devState = s.devState := rfl
@[simp] theorem askCred_errState (k : Bytes) : (s.askCred k).errState = s.errState := rfl
@[simp] theorem askCred_cfg (k : Bytes) : (s.askCred k).cfg = s.cfg := rfl
@[simp] theorem askCred_trace (k : Bytes) : (s.askCred k).trace = s.trace ++ [Event.credGet k s.nextCred] := rfl
@[simp] theorem askCred_env (k : Bytes) : (s.askCred k).env =
    { s.env.popCred with callsLeft := s.env.popCred.callsLeft.spend } := rfl

@[simp] theorem credPut_acc (k v : Bytes) : (s.credPut k v).acc = s.acc := rfl
@[simp] theorem credPut_devState (k v : Bytes) : (s.credPut k v).devState = s.devState := rfl
@[simp] theorem credPut_errState (k v : Bytes) : (s.credPut k v).errState = s.errState := rfl
@[simp] theorem credPut_cfg (k v : Bytes) : (s.credPut k v).cfg = s.cfg := rfl
@[simp] theorem credPut_trace (k v : Bytes) : (s.credPut k v).trace = s.trace ++ [Event.credPut k v] := rfl
@[simp] theorem credPut_env (k v : Bytes) : (s.credPut k v).env =
    { s.env with callsLeft := s.env.callsLeft.spend } := rfl

@[simp] theorem doReset_acc : (doReset s).acc = [] := rfl
@[simp] theorem doReset_devState : (doReset s).devState = .ready := rfl
@[simp] theorem doReset_errState : (doReset s).errState = .none := rfl
@[simp] theorem doReset_trace : (doReset s).trace = [Event.reset] := rfl
@[simp] theorem doReset_cfg : (doReset s).cfg = s.cfg := rfl
@[simp] theorem doReset_env : (doReset s).env = s.env := rfl

/-! ## The block's state as one -/

/-- A block written out field by field with the accumulator a state already has is that state's block. -/
theorem block_of_acc {s : State} {a : Bytes} (h : s.acc = a) :
    ({ acc := a, devState := s.devState, errState := s.errState } : Block) = s.toBlock := by
  subst h; rfl

@[simp] theorem record_toBlock (e : Event) : (s.record e).toBlock = s.toBlock := rfl
@[simp] theorem log_toBlock (g : LogTag) : (s.log g).toBlock = s.toBlock := rfl
@[simp] theorem call_toBlock (e : Event) : (s.call e).toBlock = s.toBlock := rfl
@[simp] theorem transmit_toBlock (b : Bytes) : (s.transmit b).toBlock = s.toBlock := rfl
@[simp] theorem askStatus_toBlock : s.askStatus.toBlock = s.toBlock := rfl
@[simp] theorem askScan_toBlock : s.askScan.toBlock = s.toBlock := rfl
@[simp] theorem askConnect_toBlock (x y : Bytes) : (s.askConnect x y).toBlock = s.toBlock := rfl
@[simp] theorem askCred_toBlock (k : Bytes) : (s.askCred k).toBlock = s.toBlock := rfl
@[simp] theorem credPut_toBlock (k v : Bytes) : (s.credPut k v).toBlock = s.toBlock := rfl

/-! ## The environment's answers -/

@[simp] theorem popStatus_schedule (v : Env) : v.popStatus.schedule = v.schedule := by
  unfold Env.popStatus; split <;> rfl
@[simp] theorem popStatus_callsLeft (v : Env) : v.popStatus.callsLeft = v.callsLeft := by
  unfold Env.popStatus; split <;> rfl
@[simp] theorem popScan_schedule (v : Env) : v.popScan.schedule = v.schedule := by
  unfold Env.popScan; split <;> rfl
@[simp] theorem popScan_callsLeft (v : Env) : v.popScan.callsLeft = v.callsLeft := by
  unfold Env.popScan; split <;> rfl
@[simp] theorem popConnect_schedule (v : Env) : v.popConnect.schedule = v.schedule := by
  unfold Env.popConnect; split <;> rfl
@[simp] theorem popConnect_callsLeft (v : Env) : v.popConnect.callsLeft = v.callsLeft := by
  unfold Env.popConnect; split <;> rfl
@[simp] theorem popCred_schedule (v : Env) : v.popCred.schedule = v.schedule := by
  unfold Env.popCred; split <;> rfl
@[simp] theorem popCred_callsLeft (v : Env) : v.popCred.callsLeft = v.callsLeft := by
  unfold Env.popCred; split <;> rfl

theorem popStatus_withSchedule (v : Env) (r : List EnvOp) :
    Env.popStatus { v with schedule := r } = { v.popStatus with schedule := r } := by
  unfold Env.popStatus; cases v.statusAnswers <;> rfl
theorem popScan_withSchedule (v : Env) (r : List EnvOp) :
    Env.popScan { v with schedule := r } = { v.popScan with schedule := r } := by
  unfold Env.popScan; cases v.scanAnswers <;> rfl
theorem popConnect_withSchedule (v : Env) (r : List EnvOp) :
    Env.popConnect { v with schedule := r } = { v.popConnect with schedule := r } := by
  unfold Env.popConnect; cases v.connectAnswers <;> rfl
theorem popCred_withSchedule (v : Env) (r : List EnvOp) :
    Env.popCred { v with schedule := r } = { v.popCred with schedule := r } := by
  unfold Env.popCred; cases v.credAnswers <;> rfl

@[simp] theorem spend_allReturn : CallBudget.allReturn.spend = .allReturn := rfl

/-- Where every call returns, a call only enters the trace (R283). -/
theorem call_of_allReturn (e : Event) (h : s.env.callsLeft = .allReturn) : s.call e = s.record e := by
  simp only [State.call, State.record, h, spend_allReturn]
  rw [← h]

/-! ## The projections of the trace -/

theorem txFrames_eq_of_trace {s t : State} {evs : List Event} (h : t.trace = s.trace ++ evs) :
    t.txFrames = s.txFrames ++ evs.filterMap Event.txBytes? := by
  simp [State.txFrames, h]

theorem mem_txFrames {s : State} {bytes : Bytes} : bytes ∈ s.txFrames ↔ Event.tx bytes ∈ s.trace := by
  simp only [State.txFrames, List.mem_filterMap]
  constructor
  · rintro ⟨e, he, h⟩
    cases e <;> simp [Event.txBytes?] at h
    exact h ▸ he
  · exact fun h => ⟨_, h, rfl⟩

end Sys2Proof.Machine
end

