-- ==== Sys2Proof/Laws/Ops.lean ====
section
/-! SUPPORT. For each shared operation, what it does: its whole effect where every collaborator call returns, and, in
every state, the one relation `Extends` that bounds what the dispatcher, the state machine and the encoder can do. -/

namespace Sys2Proof.Machine

/-! ## The encoder -/

theorem emit_of_le (type : Byte) (p : Bytes) (s : State) (h : p.length ≤ payloadMax) :
    emit type p s = s.transmit (frameBytes s.cfg s.cfg.protoVersion type p) := by
  simp [emit, encodeFrame, Nat.not_lt.2 h]

theorem emit_of_gt (type : Byte) (p : Bytes) (s : State) (h : payloadMax < p.length) :
    emit type p s = s.log .encoderOversize := by
  simp [emit, encodeFrame, h, raiseOversize]

theorem warnTruncated_eq (l : List Bytes) (s : State) :
    warnTruncated l s = { s with trace := s.trace ++ truncationEvents l } := by
  induction l generalizing s with
  | nil => simp [warnTruncated, truncationEvents]
  | cons x l ih =>
    by_cases hx : strMax < x.length <;>
      simp [warnTruncated, ih, truncationEvents, hx, raiseTruncated, State.log, State.record]

/-- The trace after a result is emitted, in every state (R87, R92, R221, R250, R251). -/
theorem emitResult_trace (l : List Bytes) (s : State) :
    (emitResult l s).trace = s.trace ++ resultEvents s.cfg l := by
  have hl := sl_length l
  unfold emitResult
  rw [warnTruncated_eq]
  by_cases h : slSize l ≤ payloadMax
  · rw [emit_of_le _ _ _ (by omega)]
    simp [resultEvents, h]
  · rw [emit_of_gt _ _ _ (by omega)]
    simp [resultEvents, h]

/-! ## Whole effects where every call returns (R283) -/

section AllReturn

variable {s : State} (h : AllReturn s)
include h

theorem transmit_of_allReturn (b : Bytes) : s.transmit b = { s with trace := s.trace ++ [.tx b] } :=
  call_of_allReturn s _ h

theorem emitCurrentState_of_allReturn (d : DevState) :
    emitCurrentState d s = { s with trace := s.trace ++ [currentStateEvent s.cfg d] } := by
  rw [emitCurrentState, emit_of_le _ _ _ (by simp [payloadMax]), transmit_of_allReturn h]
  rfl

theorem broadcast_of_allReturn :
    broadcast s = { s with trace := s.trace ++ [currentStateEvent s.cfg s.devState] } :=
  emitCurrentState_of_allReturn h s.devState

theorem setError_of_allReturn (e : ErrState) :
    setError e s = { s with errState := e, trace := s.trace ++ [errorStateEvent s.cfg e] } := by
  unfold setError
  rw [emit_of_le _ _ _ (by simp [payloadMax])]
  rw [transmit_of_allReturn (s := s.setErr e) h]
  rfl

theorem emitResult_of_allReturn (l : List Bytes) :
    emitResult l s = { s with trace := s.trace ++ resultEvents s.cfg l } := by
  have hl := sl_length l
  unfold emitResult
  rw [warnTruncated_eq]
  by_cases hs : slSize l ≤ payloadMax
  · rw [emit_of_le _ _ _ (by omega), transmit_of_allReturn (by exact h)]
    simp [resultEvents, hs]
  · rw [emit_of_gt _ _ _ (by omega)]
    simp [resultEvents, hs, State.log, State.record]

theorem askStatus_of_allReturn :
    s.askStatus = { s with trace := s.trace ++ [.netStatus s.nextStatus], env := s.env.popStatus } := by
  unfold State.askStatus
  rw [call_of_allReturn _ _ (by simpa [AllReturn] using h)]
  rfl

theorem askScan_of_allReturn :
    s.askScan = { s with trace := s.trace ++ [.netScan s.nextScan], env := s.env.popScan } := by
  unfold State.askScan
  rw [call_of_allReturn _ _ (by simpa [AllReturn] using h)]
  rfl

theorem askConnect_of_allReturn (x y : Bytes) :
    s.askConnect x y =
      { s with
        trace := s.trace ++ [.netConnect x y connectAttempts s.cfg.retryDelay s.nextConnect]
        env := s.env.popConnect } := by
  unfold State.askConnect
  rw [call_of_allReturn _ _ (by simpa [AllReturn] using h)]
  rfl

theorem askCred_of_allReturn (k : Bytes) :
    s.askCred k = { s with trace := s.trace ++ [.credGet k s.nextCred], env := s.env.popCred } := by
  unfold State.askCred
  rw [call_of_allReturn _ _ (by simpa [AllReturn] using h)]
  rfl

theorem credPut_of_allReturn (k v : Bytes) : s.credPut k v = { s with trace := s.trace ++ [.credPut k v] } :=
  call_of_allReturn s _ h

/-- An operation completes where every call returns (R283). -/
theorem complete_of_allReturn (op : State → State) : complete op s = .next (op s) := by
  unfold complete
  rw [show s.env.callsLeft = .allReturn from h]

end AllReturn

/-! ## Whole effects of the shared actions (R166, R192, R194 to R196) -/

theorem rederive_of_allReturn {s : State} (h : AllReturn s) : rederiveAndBroadcast s = { s with
      devState := derivedState s.nextStatus
      trace := s.trace ++ [.netStatus s.nextStatus, currentStateEvent s.cfg (derivedState s.nextStatus)]
      env := s.env.popStatus } := by
  unfold rederiveAndBroadcast
  rw [askStatus_of_allReturn h]
  rw [broadcast_of_allReturn (by simpa [AllReturn] using h)]
  simp [State.setDev]

theorem emitScan_of_allReturn (l : List ScanEntry) {s : State} (h : AllReturn s) : emitScan l s = { s with
   trace := s.trace ++ (l.flatMap fun n => resultEvents s.cfg (scanStrings n)) ++ [.tx (frameBytes s.cfg s.cfg.protoVersion s.cfg.typeRpcResult [])] } := by
  induction l generalizing s with
  | nil => simp only [emitScan]; rw [emitResult_of_allReturn h]; simp [resultEvents, truncationEvents, slSize]
  | cons n l ih => 
    simp only [emitScan]
    rw [emitResult_of_allReturn h, ih (by simpa [AllReturn] using h)]
    simp

theorem connectWiFi_success_of_allReturn (x y : Bytes) {s : State} (h : AllReturn s) (hc : s.nextConnect = .success) :
  connectWiFi x y s = { s with devState := .provisioned, errState := .none, trace := s.trace ++ connectedEvents s.cfg x y, env := s.env.popConnect } := by
  unfold connectWiFi connectEntry
  dsimp only
  rw [hc]
  dsimp only
  rw [broadcast_of_allReturn (by exact h), askConnect_of_allReturn (by exact h)]
  have : State.nextConnect { s.setDev .provisioning with trace := (s.setDev .provisioning).trace ++ [currentStateEvent (s.setDev .provisioning).cfg (s.setDev .provisioning).devState] } = .success := hc
  rw [this]
  unfold connectSuccess
  dsimp only
  have h' : s.env.callsLeft = .allReturn := h
  rw [credPut_of_allReturn (by simp [AllReturn, h']), credPut_of_allReturn (by simp [AllReturn, h'])]
  rw [broadcast_of_allReturn (by simpa [AllReturn] using h)]
  simp [connectedEvents, State.setDev, State.setErr]

theorem connectWiFi_failure_of_allReturn (x y : Bytes) {s : State} (h : AllReturn s) (hc : s.nextConnect = .failure) :
  connectWiFi x y s = { s with devState := .ready, errState := .unableToConnect, trace := s.trace ++ unconnectedEvents s.cfg x y, env := s.env.popConnect } := by
  unfold connectWiFi connectEntry
  dsimp only
  rw [hc]
  dsimp only
  rw [broadcast_of_allReturn (by exact h), askConnect_of_allReturn (by exact h)]
  have : State.nextConnect { s.setDev .provisioning with trace := (s.setDev .provisioning).trace ++ [currentStateEvent (s.setDev .provisioning).cfg (s.setDev .provisioning).devState] } = .failure := hc
  rw [this]
  simp only [raise]
  rw [broadcast_of_allReturn (by simpa [AllReturn] using h), setError_of_allReturn (by simpa [AllReturn] using h)]
  simp [unconnectedEvents, State.setDev]

/-! ## Completion in every state -/

/-- Inversion: an operation that completes gives the state it computes, and no call of it has hung (U1). -/
theorem complete_next {op : State → State} {s t : State} (h : complete op s = .next t) :
    t = op s ∧ (AllReturn s ∨ (op s).env.callsLeft ≠ .overrun) := by
  unfold complete settle at h
  unfold AllReturn
  split at h
  · injection h with h; exact ⟨h.symm, Or.inl ‹_›⟩
  · split at h
    · injection h with h; refine ⟨h.symm, Or.inr ?_⟩; simp_all
    · injection h with h; refine ⟨h.symm, Or.inr ?_⟩; simp_all
    · cases h
  · split at h
    · injection h with h; refine ⟨h.symm, Or.inr ?_⟩; simp_all
    · injection h with h; refine ⟨h.symm, Or.inr ?_⟩; simp_all
    · cases h

/-- No call has hung in a state an operation has completed in (U1). -/
theorem complete_callsReturned {op : State → State} {s t : State} (h : complete op s = .next t)
    (hr : s.env.callsLeft = .allReturn → t.env.callsLeft = .allReturn) : CallsReturned t := by
  obtain ⟨rfl, h | h⟩ := complete_next h
  · rw [CallsReturned, hr h]
    simp
  · exact h

/-- An operation completes or stops because a call never returns (U1); it is never refused. -/
theorem complete_cases (op : State → State) (s : State) :
    complete op s = .next (op s) ∨ complete op s = .fault .collaboratorNeverReturns := by
  unfold complete settle
  split
  · exact Or.inl rfl
  · split <;> simp
  · split <;> simp

/-! ## What an operation behind the decoder can do -/

/-- The bound on every operation behind the decoder: it does not touch the accumulator, the configuration or the
schedule, keeps a budget of calls that all return and a hang that has happened, records no arrival, and extends the trace
with events whose frames are of the outbound rows (R21, R27, R57, R223, U1). -/
structure Extends (s t : State) : Prop where
  acc : t.acc = s.acc
  cfg : t.cfg = s.cfg
  schedule : t.env.schedule = s.env.schedule
  returns : s.env.callsLeft = .allReturn → t.env.callsLeft = .allReturn
  hangs : s.env.callsLeft = .overrun → t.env.callsLeft = .overrun
  arrivals : t.trace.filter Event.isArrival = s.trace.filter Event.isArrival
  trace : ∃ evs, t.trace = s.trace ++ evs ∧ ∀ bytes, Event.tx bytes ∈ evs → IsOutboundFrame s.cfg bytes

theorem Extends.refl (s : State) : Extends s s :=
  ⟨rfl, rfl, rfl, id, id, rfl, [], by simp, by simp⟩

theorem Extends.trans {s t u : State} (h : Extends s t) (k : Extends t u) : Extends s u := by
  obtain ⟨e1, h1, h2⟩ := h.trace
  obtain ⟨e2, k1, k2⟩ := k.trace
  refine ⟨k.acc.trans h.acc, k.cfg.trans h.cfg, k.schedule.trans h.schedule, k.returns ∘ h.returns, k.hangs ∘ h.hangs,
    k.arrivals.trans h.arrivals, e1 ++ e2, by simp [k1, h1], fun b hb => ?_⟩
  rcases List.mem_append.1 hb with hb | hb
  · exact h2 b hb
  · exact h.cfg ▸ k2 b hb

theorem extends_setDev (d : DevState) (s : State) : Extends s (s.setDev d) :=
  ⟨rfl, rfl, rfl, id, id, rfl, [], by simp, by simp⟩

theorem extends_setErr (e : ErrState) (s : State) : Extends s (s.setErr e) :=
  ⟨rfl, rfl, rfl, id, id, rfl, [], by simp, by simp⟩

theorem extends_record (e : Event) (s : State) (he : ∀ b, e ≠ .tx b) (ha : e.isArrival = false) :
    Extends s (s.record e) :=
  ⟨rfl, rfl, rfl, id, id, by simp [ha], [e], rfl, fun b hb => absurd (List.mem_singleton.1 hb).symm (he b)⟩

theorem extends_log (g : LogTag) (s : State) : Extends s (s.log g) := extends_record _ s (by simp) rfl

theorem extends_call (e : Event) (s : State) (he : ∀ b, e = .tx b → IsOutboundFrame s.cfg b)
    (ha : e.isArrival = false) : Extends s (s.call e) :=
  ⟨rfl, rfl, rfl, fun h => by simp [h], fun h => by simp [h, CallBudget.spend], by simp [ha], [e], rfl, fun b hb => he b (List.mem_singleton.1 hb).symm⟩

theorem extends_askStatus (s : State) : Extends s s.askStatus :=
  ⟨rfl, rfl, by simp, fun h => by simp [h], fun h => by simp [h, CallBudget.spend], by simp [Event.isArrival], _, rfl,
    by simp⟩

theorem extends_askScan (s : State) : Extends s s.askScan :=
  ⟨rfl, rfl, by simp, fun h => by simp [h], fun h => by simp [h, CallBudget.spend], by simp [Event.isArrival], _, rfl,
    by simp⟩

theorem extends_askConnect (x y : Bytes) (s : State) : Extends s (s.askConnect x y) :=
  ⟨rfl, rfl, by simp, fun h => by simp [h], fun h => by simp [h, CallBudget.spend], by simp [Event.isArrival], _, rfl,
    by simp⟩

theorem extends_askCred (k : Bytes) (s : State) : Extends s (s.askCred k) :=
  ⟨rfl, rfl, by simp, fun h => by simp [h], fun h => by simp [h, CallBudget.spend], by simp [Event.isArrival], _, rfl,
    by simp⟩

theorem extends_credPut (k v : Bytes) (s : State) : Extends s (s.credPut k v) := extends_call _ s (by simp) rfl

theorem outbound_currentState (c : Cfg) (d : DevState) :
    IsOutboundFrame c (frameBytes c c.protoVersion c.typeCurrentState [d.code c]) :=
  ⟨.txCurrentState d, rfl, rfl, rfl⟩

theorem outbound_errorState (c : Cfg) (e : ErrState) (he : e = .unknownRpc ∨ e = .unableToConnect) :
    IsOutboundFrame c (frameBytes c c.protoVersion c.typeErrorState [e.code c]) :=
  ⟨.txErrorState e, rfl, by simp [Instr.wf, he], rfl⟩

theorem extends_emitCurrentState (d : DevState) (s : State) : Extends s (emitCurrentState d s) := by
  rw [emitCurrentState, emit_of_le _ _ _ (by simp [payloadMax])]
  refine extends_call _ s ?_ rfl
  rintro b ⟨⟩
  exact outbound_currentState _ d

theorem extends_broadcast (s : State) : Extends s (broadcast s) := extends_emitCurrentState _ s

theorem extends_setError (e : ErrState) (s : State) (he : e = .unknownRpc ∨ e = .unableToConnect) :
    Extends s (setError e s) := by
  unfold setError
  rw [emit_of_le _ _ _ (by simp [payloadMax])]
  refine (extends_setErr e s).trans (extends_call _ _ ?_ rfl)
  rintro b ⟨⟩
  exact outbound_errorState _ e he

theorem extends_emitResult (l : List Bytes) (s : State) (hl : resultShape s.cfg l = true) :
    Extends s (emitResult l s) := by
  have hlen := sl_length l
  unfold emitResult
  rw [warnTruncated_eq]
  refine Extends.trans (t := { s with trace := s.trace ++ truncationEvents l })
    ⟨rfl, rfl, rfl, id, id, by simp [truncationEvents, Event.isArrival], _, rfl,
      fun b hb => by simp [truncationEvents] at hb⟩ ?_
  by_cases hs : slSize l ≤ payloadMax
  · rw [emit_of_le _ _ _ (by omega)]
    refine extends_call _ _ ?_ rfl
    rintro b ⟨⟩
    exact ⟨.txRpcResult l, rfl, by simp [Instr.wf, hl, hs], rfl⟩
  · rw [emit_of_gt _ _ _ (by omega)]
    exact extends_log _ _

theorem resultShape_url (c : Cfg) (ip : Bytes) : resultShape c (urlStrings ip) = true := by
  simp [resultShape, urlStrings]

theorem resultShape_info (c : Cfg) : resultShape c (infoStrings c) = true := by
  simp [resultShape, infoStrings]

theorem resultShape_scan (c : Cfg) (n : ScanEntry) : resultShape c (scanStrings n) = true := by
  have := isDecText_dec n.rssi
  unfold scanStrings yesNo
  split <;> simp [resultShape, this]

theorem extends_rederive (s : State) : Extends s (rederiveAndBroadcast s) :=
  ((extends_askStatus s).trans (extends_setDev _ _)).trans (extends_broadcast _)

theorem extends_connectEntry (x y : Bytes) (s : State) : Extends s (connectEntry x y s) :=
  ((extends_setDev _ s).trans (extends_broadcast _)).trans (extends_askConnect x y _)

theorem extends_connectSuccess (x y : Bytes) (s : State) : Extends s (connectSuccess x y s) :=
  ((((extends_setDev _ s).trans (extends_setErr _ _)).trans (extends_credPut _ _ _)).trans
    (extends_credPut _ _ _)).trans (extends_broadcast _)

theorem extends_connectionFailed (s : State) : Extends s (raise .connectionFailed s) :=
  ((extends_setDev _ s).trans (extends_broadcast _)).trans (extends_setError _ _ (Or.inr rfl))

theorem extends_connectWiFi (x y : Bytes) (s : State) : Extends s (connectWiFi x y s) := by
  unfold connectWiFi
  dsimp only
  split
  · exact (extends_connectEntry x y s).trans (extends_connectSuccess x y _)
  · exact (extends_connectEntry x y s).trans (extends_connectionFailed _)

/-! ## The commands and operations -/

theorem extends_doRequestState (s : State) : Extends s (doRequestState s) := by
  unfold doRequestState
  dsimp only
  split
  · exact (extends_rederive s).trans (extends_emitResult _ _ (resultShape_url _ _))
  · exact extends_rederive s

theorem extends_doRequestInfo (s : State) : Extends s (doRequestInfo s) :=
  extends_emitResult _ s (resultShape_info _)

theorem extends_emitScan (l : List ScanEntry) (s : State) : Extends s (emitScan l s) := by
  induction l generalizing s with
  | nil => exact extends_emitResult [] s rfl
  | cons n l ih => exact (extends_emitResult _ s (resultShape_scan _ n)).trans (ih _)

theorem extends_doRequestScan (s : State) : Extends s (doRequestScan s) :=
  (extends_askScan s).trans (extends_emitScan _ _)

theorem extends_sendWifiAction (w : WifiArgs) (s : State) : Extends s (sendWifiAction w s) := by
  unfold sendWifiAction
  dsimp only
  split
  · exact (extends_connectWiFi _ _ s).trans
      ((extends_askStatus _).trans (extends_emitResult _ _ (resultShape_url _ _)))
  · exact extends_connectWiFi _ _ s

theorem extends_doSendWiFi (args : Bytes) (s : State) : Extends s (doSendWiFi args s) := by
  unfold doSendWiFi
  split
  · exact Extends.refl s
  · exact extends_sendWifiAction _ s

theorem extends_doBegin (s : State) : Extends (s.record .begun) (doBegin s) := by
  unfold doBegin
  dsimp only
  split
  · exact extends_askCred _ _
  · exact (extends_askCred _ _).trans ((extends_askCred _ _).trans (extends_connectWiFi _ _ _))

theorem extends_doTick (s : State) : Extends (s.record .tick) (doTick s) := extends_rederive _

theorem extends_doStatusText (s : State) : Extends s (doStatusText s) :=
  (extends_askStatus s).trans (extends_record _ _ (by simp) rfl)

/-- What any instruction the host can send does, when it completes: it stays within `Extends`. -/
theorem exec_extends {i : Instr} {s t : State} (hi : i.inbound = true) (h : exec i s = .next t) : Extends s t := by
  cases i with
  | rxCurrentState v p => injection h with h; exact h ▸ Extends.refl s
  | rxErrorState v p => injection h with h; exact h ▸ Extends.refl s
  | rxRpcResult v p => injection h with h; exact h ▸ Extends.refl s
  | rpcEmpty => injection h with h; exact h ▸ Extends.refl s
  | rpcSendWiFi args => exact (complete_next h).1 ▸ extends_doSendWiFi args s
  | rpcRequestState args => exact (complete_next h).1 ▸ extends_doRequestState s
  | rpcRequestInfo args => exact (complete_next h).1 ▸ extends_doRequestInfo s
  | rpcRequestScan args => exact (complete_next h).1 ▸ extends_doRequestScan s
  | rpcUnknown cmd args => exact (complete_next h).1 ▸ extends_setError _ s (Or.inl rfl)
  | rpcForeignVersion v p => injection h with h; exact h ▸ Extends.refl s
  | rxUnassignedType v ty p => injection h with h; exact h ▸ Extends.refl s
  | txCurrentState d => cases hi
  | txErrorState e => cases hi
  | txRpcResult l => cases hi

/-- The mux gives inbound instructions only (R99: "an outbound row is never used to decode"). -/
theorem mux_inbound (c : Cfg) (fr : Frame) : (mux c fr).inbound = true := by
  unfold mux muxNonRpc muxCommand
  split
  · split
    · rfl
    split
    · rfl
    split <;> rfl
  split
  · rfl
  split
  · rfl
  · split
    · rfl
    split
    · rfl
    split
    · rfl
    split <;> rfl

end Sys2Proof.Machine
end

