-- ==== Sys2Proof/Laws/Accumulator.lean ====
section
/-! SUPPORT. Every operation behind the decoder commutes with a change of the accumulator: none of them reads it (R21). -/

namespace Sys2Proof.Machine

section
variable (a : Bytes)
theorem emit_setAcc (ty p) (s : State) : emit ty p (s.setAcc a) = (emit ty p s).setAcc a := by
  unfold emit
  simp only [setAcc_cfg]
  split <;> rfl
theorem warnTruncated_setAcc (l) (s : State) : warnTruncated l (s.setAcc a) = (warnTruncated l s).setAcc a := by
  rw [warnTruncated_eq, warnTruncated_eq]; rfl
theorem emitResult_setAcc (l) (s : State) : emitResult l (s.setAcc a) = (emitResult l s).setAcc a := by
  unfold emitResult
  simp only [warnTruncated_setAcc, emit_setAcc, setAcc_cfg]
theorem emitCurrentState_setAcc (d) (s : State) : emitCurrentState d (s.setAcc a) = (emitCurrentState d s).setAcc a := by
  unfold emitCurrentState; simp only [emit_setAcc, setAcc_cfg]
theorem broadcast_setAcc (s : State) : broadcast (s.setAcc a) = (broadcast s).setAcc a := emitCurrentState_setAcc a _ s
theorem setError_setAcc (e) (s : State) : setError e (s.setAcc a) = (setError e s).setAcc a := by
  unfold setError
  exact emit_setAcc a _ _ (s.setErr e)
theorem rederive_setAcc (s : State) : rederiveAndBroadcast (s.setAcc a) = (rederiveAndBroadcast s).setAcc a :=
  broadcast_setAcc a (s.askStatus.setDev (derivedState s.nextStatus))
theorem nextConnect_setAcc (s : State) : (s.setAcc a).nextConnect = s.nextConnect := rfl
theorem nextStatus_setAcc (s : State) : (s.setAcc a).nextStatus = s.nextStatus := rfl
theorem connectEntry_setAcc (x y) (s : State) : connectEntry x y (s.setAcc a) = (connectEntry x y s).setAcc a := by
  unfold connectEntry
  rw [show (s.setAcc a).setDev .provisioning = (s.setDev .provisioning).setAcc a from rfl, broadcast_setAcc]; rfl
theorem connectSuccess_setAcc (x y) (s : State) : connectSuccess x y (s.setAcc a) = (connectSuccess x y s).setAcc a := by
  unfold connectSuccess
  exact broadcast_setAcc a (((((s.setDev .provisioned).setErr .none)).credPut s.cfg.credKeySsid x).credPut s.cfg.credKeyPassword y)
theorem connectionFailed_setAcc (s : State) : raise .connectionFailed (s.setAcc a) = (raise .connectionFailed s).setAcc a := by
  simp only [raise]
  rw [show (s.setAcc a).setDev .ready = (s.setDev .ready).setAcc a from rfl, broadcast_setAcc, setError_setAcc]
theorem connectWiFi_setAcc (x y) (s : State) : connectWiFi x y (s.setAcc a) = (connectWiFi x y s).setAcc a := by
  unfold connectWiFi
  simp only [nextConnect_setAcc, connectEntry_setAcc, connectSuccess_setAcc, connectionFailed_setAcc]
  split <;> rfl
theorem doRequestState_setAcc (s : State) : doRequestState (s.setAcc a) = (doRequestState s).setAcc a := by
  unfold doRequestState
  simp only [rederive_setAcc, nextStatus_setAcc, setAcc_devState, emitResult_setAcc]
  split <;> rfl
theorem emitScan_setAcc (l) (s : State) : emitScan l (s.setAcc a) = (emitScan l s).setAcc a := by
  induction l generalizing s with
  | nil => exact emitResult_setAcc a [] s
  | cons n l ih => simp only [emitScan, emitResult_setAcc, ih]
theorem sendWifiAction_setAcc (w) (s : State) : sendWifiAction w (s.setAcc a) = (sendWifiAction w s).setAcc a := by
  unfold sendWifiAction sendRedirect
  simp only [connectWiFi_setAcc, nextConnect_setAcc, nextStatus_setAcc]
  split
  · exact emitResult_setAcc a _ (State.askStatus _)
  · rfl
theorem doSendWiFi_setAcc (args) (s : State) : doSendWiFi args (s.setAcc a) = (doSendWiFi args s).setAcc a := by
  unfold doSendWiFi; split
  · rfl
  · exact sendWifiAction_setAcc a _ s
theorem complete_setAcc (op : State → State) (s : State) (h : op (s.setAcc a) = (op s).setAcc a) :
   match complete op s with
    | .next t => complete op { s with acc := a } = .next { t with acc := a }
    | .fault r => complete op { s with acc := a } = .fault r
    | .refused r => complete op { s with acc := a } = .refused r := by
  have h' : op { s with acc := a } = { op s with acc := a } := h
  unfold complete settle
  dsimp only
  rw [h']
  cases s.env.callsLeft <;> dsimp only <;> cases (op s).env.callsLeft <;> rfl
end

end Sys2Proof.Machine
end

