-- ==== Sys2Proof/Laws/Step.lean ====
section
/-! SUPPORT. Laws of the step: what the next operation does, the verdict of `feed`, and the invariant of the accumulator. -/

namespace Sys2Proof.Machine

/-! ## The step is its next operation -/

theorem step_of_next {op : EnvOp} {rest : List EnvOp} {s : State} (h : Next op rest s) :
    step s = perform op { s with env := { s.env with schedule := rest } } := by
  simp [step, guardedNext, h.1, runNext, h.2]

/-- Inversion of a step that completes: the block was idle, or one operation was performed. -/
theorem step_next {s t : State} (h : step s = .next t) :
    s.cfg.wf = true ∧
      ((s.env.schedule = [] ∧ t = s) ∨
        ∃ op rest, s.env.schedule = op :: rest ∧
          perform op { s with env := { s.env with schedule := rest } } = .next t) := by
  unfold step guardedNext at h
  split at h
  · refine ⟨‹_›, ?_⟩
    unfold runNext at h
    split at h
    · injection h with h
      exact Or.inl ⟨‹_›, h.symm⟩
    · exact Or.inr ⟨_, _, ‹_›, h⟩
  · cases h

theorem step_of_feed {b : Byte} {rest : List EnvOp} {s : State} (h : Next (.feed b) rest s) :
    step s = feedVerdict (checkFrame s.cfg (s.acc ++ [b])) (appended b rest s) := by
  rw [step_of_next h]
  rfl

/-! ## What the operations that make calls can do -/

theorem begin_extends {s t : State} (h : perform .begin s = .next t) : Extends (s.record .begun) t := by
  rw [(complete_next h).1]; exact extends_doBegin s

theorem tick_extends {s t : State} (h : perform .tick s = .next t) : Extends (s.record .tick) t := by
  rw [(complete_next h).1]; exact extends_doTick s

theorem statusText_extends {s t : State} (h : perform .statusText s = .next t) : Extends s t := by
  rw [(complete_next h).1]; exact extends_doStatusText s

/-- An operation that makes a call, once a call of it is known to hang, does not complete (U1). -/
theorem complete_of_hang {op : State → State} {s : State} (h : s.env.callsLeft ≠ .allReturn)
    (hop : (op s).env.callsLeft = .overrun) : complete op s = .fault .collaboratorNeverReturns := by
  unfold complete settle
  split
  · exact absurd ‹_› h
  · rw [hop]
  · rw [hop]

/-- The schedule of the control loop is one the spec allows (R282, R284). -/
theorem bootSchedule_legal (passes : List (Bytes × Bool)) : legalSchedule false (bootSchedule passes) = true := by
  simp only [bootSchedule, legalSchedule]
  induction passes with
  | nil => rfl
  | cons pass passes ih =>
    obtain ⟨bytes, due⟩ := pass
    simp only [List.flatMap_cons]
    rw [loopPass, List.append_assoc]
    induction bytes with
    | nil => cases due <;> simpa [legalSchedule] using ih
    | cons b bytes ih2 => simpa [legalSchedule] using ih2

/-! ## Several steps -/

theorem runSteps_succ {s t : State} (n : Nat) (h : step s = .next t) : runSteps (n + 1) s = runSteps n t := by
  rw [runSteps, h]

theorem runSteps_one (s : State) : runSteps 1 s = step s := by
  unfold runSteps
  cases step s <;> rfl

theorem runSteps_add {m n : Nat} {s t : State} (h : runSteps m s = .next t) :
    runSteps (m + n) s = runSteps n t := by
  induction m generalizing s with
  | zero => injection h with h; rw [h, Nat.zero_add]
  | succ m ih =>
    rw [Nat.add_right_comm]
    cases hs : step s with
    | next u => rw [runSteps_succ _ hs] at h ⊢; exact ih h
    | fault r => simp [runSteps, hs] at h
    | refused r => simp [runSteps, hs] at h

/-- The host's run of the core is this machine's run. -/
theorem core_run_eq (n : Nat) (s : State) : Host.Core.run core n s = runSteps n s := by
  induction n generalizing s with
  | zero => rfl
  | succ n ih =>
    unfold runSteps
    cases hs : step s with
    | next t =>
      have h : core.step s = .next t := hs
      exact (show ∀ (M : Host.Core) (x y : M.State), M.step x = .next y → M.run (n + 1) x = M.run n y from
        fun M x y hxy => by rw [Host.Core.run, hxy]) core s t h |>.trans (ih t)
    | fault r =>
      have h : core.step s = .fault r := hs
      exact (show ∀ (M : Host.Core) (x : M.State) (y : M.Fault), M.step x = .fault y → M.run (n + 1) x = .fault y from
        fun M x y hxy => by rw [Host.Core.run, hxy]) core s r h
    | refused r =>
      have h : core.step s = .refused r := hs
      exact (show ∀ (M : Host.Core) (x : M.State) (y : M.Refusal), M.step x = .refused y → M.run (n + 1) x = .refused y
        from fun M x y hxy => by rw [Host.Core.run, hxy]) core s r h

/-! ## The verdict, case by case -/

section Verdict

variable {c : Cfg} {acc : Bytes}

theorem checkFrame_gate (h : acc.length < 9) : checkFrame c acc = .error .gate := by
  simp [checkFrame, hdrLen, h]

theorem checkFrame_framingError (h : 9 ≤ acc.length) (hm : slice acc 0 6 ≠ c.magic) :
    checkFrame c acc = .error .framingError := by
  simp [checkFrame, hdrLen, magicLen, Nat.not_lt.2 h, hm]

theorem checkFrame_lengthTooLarge (h : 9 ≤ acc.length) (hm : slice acc 0 6 = c.magic)
    (hl : 200 < declaredLen acc) : checkFrame c acc = .error .lengthTooLarge := by
  simp [checkFrame, hdrLen, magicLen, Nat.not_lt.2 h, hm, lenCeiling, hl]

theorem checkFrame_incomplete (h : 9 ≤ acc.length) (hm : slice acc 0 6 = c.magic) (hl : declaredLen acc ≤ 200)
    (he : acc.length < 9 + declaredLen acc + 1) : checkFrame c acc = .error .incomplete := by
  simp [checkFrame, hdrLen, csumLen, magicLen, Nat.not_lt.2 h, hm, lenCeiling, Nat.not_lt.2 hl, expectedSize, he]

theorem checkFrame_checksumMismatch (h : 9 ≤ acc.length) (hm : slice acc 0 6 = c.magic) (hl : declaredLen acc ≤ 200)
    (he : 9 + declaredLen acc + 1 ≤ acc.length)
    (hs : sum8 (slice acc 0 (9 + declaredLen acc)) ≠ byteAt acc (9 + declaredLen acc)) :
    checkFrame c acc = .error .checksumMismatch := by
  simp [checkFrame, hdrLen, csumLen, magicLen, Nat.not_lt.2 h, hm, lenCeiling, Nat.not_lt.2 hl, expectedSize,
    Nat.not_lt.2 he, hs]

theorem checkFrame_accept (h : 9 ≤ acc.length) (hm : slice acc 0 6 = c.magic) (hl : declaredLen acc ≤ 200)
    (he : 9 + declaredLen acc + 1 ≤ acc.length)
    (hs : sum8 (slice acc 0 (9 + declaredLen acc)) = byteAt acc (9 + declaredLen acc)) :
    checkFrame c acc = .ok ⟨byteAt acc 6, byteAt acc 7, slice acc 9 (9 + declaredLen acc)⟩ := by
  simp [checkFrame, hdrLen, csumLen, magicLen, Nat.not_lt.2 h, hm, lenCeiling, Nat.not_lt.2 hl, expectedSize,
    Nat.not_lt.2 he, hs]

end Verdict

/-! ## The accumulator's invariant (R22) -/

theorem declaredLen_append (acc : Bytes) (b : Byte) (h : 9 ≤ acc.length) :
    declaredLen (acc ++ [b]) = declaredLen acc := by
  rw [declaredLen, declaredLen, byteAt_append_left _ _ _ (by omega)]

theorem slice_magic_append (acc : Bytes) (b : Byte) (h : 9 ≤ acc.length) :
    slice (acc ++ [b]) 0 6 = slice acc 0 6 :=
  slice_append_left _ _ _ _ (by omega)

theorem AccInv.length_le {c : Cfg} {acc : Bytes} (h : AccInv c acc) : acc.length ≤ 209 := by
  rcases h with h | ⟨_, h2, _, h4⟩
  · omega
  · simp only [lenCeiling] at h4; omega

/-- A buffer that was kept and is misaligned after one more byte has exactly nine bytes (R122). -/
theorem AccInv.misaligned_length {c : Cfg} {acc : Bytes} {b : Byte} (h : AccInv c acc)
    (h9 : 9 ≤ (acc ++ [b]).length) (hm : slice (acc ++ [b]) 0 6 ≠ c.magic) : acc.length = 8 := by
  rcases h with h | ⟨h1, -, h3, -⟩
  · simp at h9; omega
  · exact absurd ((slice_magic_append acc b h1).trans h3) hm

/-- The accumulator after a `feed` whose verdict is not a frame keeps the invariant. -/
theorem AccInv.append_wait {c : Cfg} {acc : Bytes} (h : acc.length < 9 ∨ (9 ≤ acc.length ∧ slice acc 0 6 = c.magic ∧
    declaredLen acc ≤ 200 ∧ acc.length < 9 + declaredLen acc + 1)) : AccInv c acc := by
  rcases h with h | ⟨h1, h2, h3, h4⟩
  · exact Or.inl (by omega)
  · exact Or.inr ⟨h1, h4, h2, h3⟩

theorem accInv_nil (c : Cfg) : AccInv c [] := Or.inl (by simp)

end Sys2Proof.Machine
end

