-- ==== Sys2Proof/Laws/Answers.lean ====
section
/-! SUPPORT. Every operation commutes with further answers scripted behind those it draws: which answers stand undrawn is no
state of the block (R31). -/

namespace Sys2Proof.Machine

section

variable (status : List NetStatus) (scan : List (List ScanEntry)) (connect : List ConnectResult)
  (cred : List (Option Bytes)) (s : State)

/-! ## The fields -/

@[simp] theorem withMoreAnswers_toBlock : (s.withMoreAnswers status scan connect cred).toBlock = s.toBlock := rfl
@[simp] theorem withMoreAnswers_trace : (s.withMoreAnswers status scan connect cred).trace = s.trace := rfl
@[simp] theorem withMoreAnswers_cfg : (s.withMoreAnswers status scan connect cred).cfg = s.cfg := rfl
@[simp] theorem withMoreAnswers_schedule :
    (s.withMoreAnswers status scan connect cred).env.schedule = s.env.schedule := rfl
@[simp] theorem withMoreAnswers_callsLeft :
    (s.withMoreAnswers status scan connect cred).env.callsLeft = s.env.callsLeft := rfl

/-! ## What makes no draw -/

theorem record_more (e : Event) :
    (s.withMoreAnswers status scan connect cred).record e = (s.record e).withMoreAnswers status scan connect cred := rfl

theorem call_more (e : Event) :
    (s.withMoreAnswers status scan connect cred).call e = (s.call e).withMoreAnswers status scan connect cred := rfl

theorem emit_more (ty : Byte) (p : Bytes) :
    emit ty p (s.withMoreAnswers status scan connect cred) =
      (emit ty p s).withMoreAnswers status scan connect cred := by
  unfold emit
  rw [withMoreAnswers_cfg]
  split <;> rfl

theorem emitResult_more (l : List Bytes) :
    emitResult l (s.withMoreAnswers status scan connect cred) =
      (emitResult l s).withMoreAnswers status scan connect cred := by
  unfold emitResult
  rw [warnTruncated_eq, warnTruncated_eq]
  exact emit_more status scan connect cred { s with trace := s.trace ++ truncationEvents l } s.cfg.typeRpcResult (sl l)

theorem broadcast_more :
    broadcast (s.withMoreAnswers status scan connect cred) =
      (broadcast s).withMoreAnswers status scan connect cred :=
  emit_more status scan connect cred s s.cfg.typeCurrentState [s.devState.code s.cfg]

theorem setError_more (e : ErrState) :
    setError e (s.withMoreAnswers status scan connect cred) =
      (setError e s).withMoreAnswers status scan connect cred :=
  emit_more status scan connect cred (s.setErr e) s.cfg.typeErrorState [e.code s.cfg]

theorem raise_more (x : Condition) :
    raise x (s.withMoreAnswers status scan connect cred) =
      (raise x s).withMoreAnswers status scan connect cred := by
  cases x with
  | unknownCommand => exact setError_more status scan connect cred s _
  | connectionFailed =>
    simp only [raise]
    rw [show (s.withMoreAnswers status scan connect cred).setDev .ready =
      (s.setDev .ready).withMoreAnswers status scan connect cred from rfl, broadcast_more, setError_more]
  | _ => rfl

theorem connectSuccess_more (x y : Bytes) :
    connectSuccess x y (s.withMoreAnswers status scan connect cred) =
      (connectSuccess x y s).withMoreAnswers status scan connect cred :=
  broadcast_more status scan connect cred
    ((((s.setDev .provisioned).setErr .none).credPut s.cfg.credKeySsid x).credPut s.cfg.credKeyPassword y)

theorem emitScan_more (l : List ScanEntry) :
    emitScan l (s.withMoreAnswers status scan connect cred) =
      (emitScan l s).withMoreAnswers status scan connect cred := by
  induction l generalizing s with
  | nil => exact emitResult_more status scan connect cred s []
  | cons n l ih => simp only [emitScan, emitResult_more, ih]

/-! ## One draw each -/

theorem nextStatus_more (h : s.env.statusAnswers ≠ []) :
    (s.withMoreAnswers status scan connect cred).nextStatus = s.nextStatus := by
  unfold State.nextStatus State.withMoreAnswers
  cases hs : s.env.statusAnswers with
  | nil => exact absurd hs h
  | cons a l => rfl

theorem askStatus_more (h : s.env.statusAnswers ≠ []) :
    (s.withMoreAnswers status scan connect cred).askStatus =
      s.askStatus.withMoreAnswers status scan connect cred := by
  unfold State.askStatus
  rw [nextStatus_more status scan connect cred s h]
  unfold State.withMoreAnswers State.call Env.popStatus
  cases hs : s.env.statusAnswers with
  | nil => exact absurd hs h
  | cons a l => rfl

theorem nextScan_more (h : s.env.scanAnswers ≠ []) :
    (s.withMoreAnswers status scan connect cred).nextScan = s.nextScan := by
  unfold State.nextScan State.withMoreAnswers
  cases hs : s.env.scanAnswers with
  | nil => exact absurd hs h
  | cons a l => rfl

theorem askScan_more (h : s.env.scanAnswers ≠ []) :
    (s.withMoreAnswers status scan connect cred).askScan = s.askScan.withMoreAnswers status scan connect cred := by
  unfold State.askScan
  rw [nextScan_more status scan connect cred s h]
  unfold State.withMoreAnswers State.call Env.popScan
  cases hs : s.env.scanAnswers with
  | nil => exact absurd hs h
  | cons a l => rfl

theorem nextConnect_more (h : s.env.connectAnswers ≠ []) :
    (s.withMoreAnswers status scan connect cred).nextConnect = s.nextConnect := by
  unfold State.nextConnect State.withMoreAnswers
  cases hs : s.env.connectAnswers with
  | nil => exact absurd hs h
  | cons a l => rfl

theorem askConnect_more (x y : Bytes) (h : s.env.connectAnswers ≠ []) :
    (s.withMoreAnswers status scan connect cred).askConnect x y =
      (s.askConnect x y).withMoreAnswers status scan connect cred := by
  unfold State.askConnect
  rw [nextConnect_more status scan connect cred s h]
  unfold State.withMoreAnswers State.call Env.popConnect
  cases hs : s.env.connectAnswers with
  | nil => exact absurd hs h
  | cons a l => rfl

theorem nextCred_more (h : s.env.credAnswers ≠ []) :
    (s.withMoreAnswers status scan connect cred).nextCred = s.nextCred := by
  unfold State.nextCred State.withMoreAnswers
  cases hs : s.env.credAnswers with
  | nil => exact absurd hs h
  | cons a l => rfl

theorem askCred_more (k : Bytes) (h : s.env.credAnswers ≠ []) :
    (s.withMoreAnswers status scan connect cred).askCred k =
      (s.askCred k).withMoreAnswers status scan connect cred := by
  unfold State.askCred
  rw [nextCred_more status scan connect cred s h]
  unfold State.withMoreAnswers State.call Env.popCred
  cases hs : s.env.credAnswers with
  | nil => exact absurd hs h
  | cons a l => rfl

/-! ## Several draws -/

theorem rederive_more (h : s.env.statusAnswers ≠ []) :
    rederiveAndBroadcast (s.withMoreAnswers status scan connect cred) =
      (rederiveAndBroadcast s).withMoreAnswers status scan connect cred := by
  unfold rederiveAndBroadcast
  rw [askStatus_more status scan connect cred s h, nextStatus_more status scan connect cred s h]
  exact broadcast_more status scan connect cred (s.askStatus.setDev _)

theorem broadcast_connectAnswers : (broadcast s).env.connectAnswers = s.env.connectAnswers := by
  rw [broadcast, emitCurrentState, emit_of_le _ _ _ (by simp [payloadMax])]
  rfl

theorem connectWiFi_more (x y : Bytes) (h : s.env.connectAnswers ≠ []) :
    connectWiFi x y (s.withMoreAnswers status scan connect cred) =
      (connectWiFi x y s).withMoreAnswers status scan connect cred := by
  have he : connectEntry x y (s.withMoreAnswers status scan connect cred) =
      (connectEntry x y s).withMoreAnswers status scan connect cred := by
    unfold connectEntry
    rw [show (s.withMoreAnswers status scan connect cred).setDev .provisioning =
      (s.setDev .provisioning).withMoreAnswers status scan connect cred from rfl, broadcast_more]
    exact askConnect_more status scan connect cred _ x y (by rw [broadcast_connectAnswers]; exact h)
  unfold connectWiFi
  rw [nextConnect_more status scan connect cred s h]
  dsimp only
  rw [he]
  split
  · exact connectSuccess_more status scan connect cred _ x y
  · exact raise_more status scan connect cred _ _

theorem emitResult_statusAnswers (l : List Bytes) : (emitResult l s).env.statusAnswers = s.env.statusAnswers := by
  unfold emitResult
  rw [warnTruncated_eq]
  unfold emit
  dsimp only
  split <;> rfl

theorem setError_statusAnswers (e : ErrState) : (setError e s).env.statusAnswers = s.env.statusAnswers := by
  unfold setError
  rw [emit_of_le _ _ _ (by simp [payloadMax])]
  rfl

theorem broadcast_statusAnswers : (broadcast s).env.statusAnswers = s.env.statusAnswers := by
  rw [broadcast, emitCurrentState, emit_of_le _ _ _ (by simp [payloadMax])]
  rfl

theorem askConnect_statusAnswers (x y : Bytes) : (s.askConnect x y).env.statusAnswers = s.env.statusAnswers := by
  rw [askConnect_env]
  unfold Env.popConnect
  cases s.env.connectAnswers <;> rfl

theorem askCred_connectAnswers (k : Bytes) : (s.askCred k).env.connectAnswers = s.env.connectAnswers := by
  rw [askCred_env]
  unfold Env.popCred
  cases s.env.credAnswers <;> rfl

/-- A connect attempt draws no status (R194 to R196). -/
theorem connectWiFi_statusAnswers (x y : Bytes) : (connectWiFi x y s).env.statusAnswers = s.env.statusAnswers := by
  have he : (connectEntry x y s).env.statusAnswers = s.env.statusAnswers := by
    unfold connectEntry
    rw [askConnect_statusAnswers, broadcast_statusAnswers]
    rfl
  unfold connectWiFi
  dsimp only
  split
  · unfold connectSuccess
    rw [broadcast_statusAnswers]
    exact he
  · simp only [raise]
    rw [setError_statusAnswers, broadcast_statusAnswers]
    exact he

/-! ## The commands and operations -/

theorem doRequestState_more (h : s.env.statusAnswers ≠ []) :
    doRequestState (s.withMoreAnswers status scan connect cred) =
      (doRequestState s).withMoreAnswers status scan connect cred := by
  unfold doRequestState
  rw [rederive_more status scan connect cred s h, nextStatus_more status scan connect cred s h]
  dsimp only
  split
  · rw [if_pos (by assumption)]
    exact emitResult_more status scan connect cred _ _
  · rw [if_neg (by assumption)]

theorem doRequestScan_more (h : s.env.scanAnswers ≠ []) :
    doRequestScan (s.withMoreAnswers status scan connect cred) =
      (doRequestScan s).withMoreAnswers status scan connect cred := by
  unfold doRequestScan
  rw [nextScan_more status scan connect cred s h, askScan_more status scan connect cred s h, emitScan_more]

theorem sendWifiAction_more (w : WifiArgs) (hc : s.env.connectAnswers ≠ []) (hs : s.env.statusAnswers ≠ []) :
    sendWifiAction w (s.withMoreAnswers status scan connect cred) =
      (sendWifiAction w s).withMoreAnswers status scan connect cred := by
  have hs' : (connectWiFi w.ssid w.password s).env.statusAnswers ≠ [] := by
    rw [connectWiFi_statusAnswers]; exact hs
  unfold sendWifiAction
  rw [connectWiFi_more status scan connect cred s _ _ hc, nextConnect_more status scan connect cred s hc]
  dsimp only
  split
  · unfold sendRedirect
    rw [nextStatus_more status scan connect cred _ hs', askStatus_more status scan connect cred _ hs', emitResult_more]
  · rfl

theorem doSendWiFi_more (args : Bytes) (hc : s.env.connectAnswers ≠ []) (hs : s.env.statusAnswers ≠ []) :
    doSendWiFi args (s.withMoreAnswers status scan connect cred) =
      (doSendWiFi args s).withMoreAnswers status scan connect cred := by
  unfold doSendWiFi
  split
  · rfl
  · exact sendWifiAction_more status scan connect cred s _ hc hs

theorem doBegin_more (hk : 2 ≤ s.env.credAnswers.length) (hc : s.env.connectAnswers ≠ []) :
    doBegin (s.withMoreAnswers status scan connect cred) =
      (doBegin s).withMoreAnswers status scan connect cred := by
  have h1 : (s.record .begun).env.credAnswers ≠ [] := fun h => by
    rw [show s.env.credAnswers = [] from h] at hk; simp at hk
  have h2 : ((s.record .begun).askCred (s.record .begun).cfg.credKeySsid).env.credAnswers ≠ [] := by
    rw [askCred_env, record_env]
    unfold Env.popCred
    match ha : s.env.credAnswers, hk with
    | a :: b :: l, _ => simp
  unfold doBegin
  rw [record_more]
  dsimp only [withMoreAnswers_cfg]
  rw [nextCred_more status scan connect cred _ h1, askCred_more status scan connect cred _ _ h1]
  split
  · rfl
  · rw [withMoreAnswers_cfg, nextCred_more status scan connect cred _ h2, askCred_more status scan connect cred _ _ h2]
    exact connectWiFi_more status scan connect cred _ _ _
      (by rw [askCred_connectAnswers, askCred_connectAnswers]; exact hc)

theorem doTick_more (h : s.env.statusAnswers ≠ []) :
    doTick (s.withMoreAnswers status scan connect cred) = (doTick s).withMoreAnswers status scan connect cred :=
  rederive_more status scan connect cred (s.record .tick) h

theorem doStatusText_more (h : s.env.statusAnswers ≠ []) :
    doStatusText (s.withMoreAnswers status scan connect cred) =
      (doStatusText s).withMoreAnswers status scan connect cred := by
  unfold doStatusText
  rw [askStatus_more status scan connect cred s h, nextStatus_more status scan connect cred s h]
  rfl

/-- An operation that commutes with further answers still does so when run to its end. -/
theorem complete_more (op : State → State)
    (h : op (s.withMoreAnswers status scan connect cred) = (op s).withMoreAnswers status scan connect cred) :
    complete op (s.withMoreAnswers status scan connect cred) =
      mapNext (State.withMoreAnswers status scan connect cred) (complete op s) := by
  unfold complete settle
  rw [h, withMoreAnswers_callsLeft, withMoreAnswers_callsLeft]
  cases s.env.callsLeft <;> dsimp only <;> cases (op s).env.callsLeft <;> rfl

end

end Sys2Proof.Machine
end

