-- ==== Sys2Proof/Laws/PerInstr.lean ====
section
/-! SUPPORT. A statement of each instruction as syntax: the frame it is encoded to has the size its payload gives and begins
with the header of format `F` (R56, R81). -/

namespace Sys2Proof.Laws

/-- The encoding of any instruction has its frame's size and header, whatever the configuration's magic of six bytes. -/
def EncodedHeader.Statement (i : Instr) : Prop :=
  ∀ c : Cfg, c.magic.length = 6 →
    (encode c i).length = 10 + (i.frame c).payload.length ∧
      (encode c i).take 9 =
        c.magic ++ [(i.frame c).version, (i.frame c).type, BitVec.ofNat 8 (i.frame c).payload.length]

/-- The same of any frame, from which every instruction's statement follows. -/
theorem frame_header (c : Cfg) (fr : Frame) (hm : c.magic.length = 6) :
    (fr.bytes c).length = 10 + fr.payload.length ∧
      (fr.bytes c).take 9 = c.magic ++ [fr.version, fr.type, BitVec.ofNat 8 fr.payload.length] := by
  refine ⟨frameBytes_length c _ _ _ hm, ?_⟩
  have : (c.magic ++ [fr.version, fr.type, BitVec.ofNat 8 fr.payload.length]).length = 9 := by simp [hm]
  rw [Frame.bytes, frameBytes, frameBody, List.append_assoc, ← this]
  exact List.take_left' rfl

theorem EncodedHeader.rxCurrentState (version : Byte) (payload : Bytes) : EncodedHeader.Statement (.rxCurrentState version payload) := fun c hm => frame_header c _ hm
theorem EncodedHeader.rxErrorState (version : Byte) (payload : Bytes) : EncodedHeader.Statement (.rxErrorState version payload) := fun c hm => frame_header c _ hm
theorem EncodedHeader.rxRpcResult (version : Byte) (payload : Bytes) : EncodedHeader.Statement (.rxRpcResult version payload) := fun c hm => frame_header c _ hm
theorem EncodedHeader.rpcEmpty : EncodedHeader.Statement (.rpcEmpty) := fun c hm => frame_header c _ hm
theorem EncodedHeader.rpcSendWiFi (args : Bytes) : EncodedHeader.Statement (.rpcSendWiFi args) := fun c hm => frame_header c _ hm
theorem EncodedHeader.rpcRequestState (args : Bytes) : EncodedHeader.Statement (.rpcRequestState args) := fun c hm => frame_header c _ hm
theorem EncodedHeader.rpcRequestInfo (args : Bytes) : EncodedHeader.Statement (.rpcRequestInfo args) := fun c hm => frame_header c _ hm
theorem EncodedHeader.rpcRequestScan (args : Bytes) : EncodedHeader.Statement (.rpcRequestScan args) := fun c hm => frame_header c _ hm
theorem EncodedHeader.rpcUnknown (cmd : Byte) (args : Bytes) : EncodedHeader.Statement (.rpcUnknown cmd args) := fun c hm => frame_header c _ hm
theorem EncodedHeader.rpcForeignVersion (version : Byte) (payload : Bytes) : EncodedHeader.Statement (.rpcForeignVersion version payload) := fun c hm => frame_header c _ hm
theorem EncodedHeader.rxUnassignedType (version : Byte) (type : Byte) (payload : Bytes) : EncodedHeader.Statement (.rxUnassignedType version type payload) := fun c hm => frame_header c _ hm
theorem EncodedHeader.txCurrentState (state : DevState) : EncodedHeader.Statement (.txCurrentState state) := fun c hm => frame_header c _ hm
theorem EncodedHeader.txErrorState (error : ErrState) : EncodedHeader.Statement (.txErrorState error) := fun c hm => frame_header c _ hm
theorem EncodedHeader.txRpcResult (strings : List Bytes) : EncodedHeader.Statement (.txRpcResult strings) := fun c hm => frame_header c _ hm

end Sys2Proof.Laws
end

