-- ==== Sys2Proof/Laws/Registers.lean ====
section
/-! SUPPORT. What each operation leaves in `DEVSTATE` and `ERRSTATE` (R25, R26, R192 to R198), and the inversion of `feed`. -/

namespace Sys2Proof.Machine

theorem emitResult_keeps (l : List Bytes) (s : State) :
  (emitResult l s).acc = s.acc ∧ (emitResult l s).cfg = s.cfg ∧ (emitResult l s).devState = s.devState ∧ (emitResult l s).errState = s.errState ∧ (emitResult l s).env.schedule = s.env.schedule := by
  unfold emitResult
  rw [warnTruncated_eq]
  unfold emit
  dsimp only
  split <;> simp [raiseOversize]

theorem emitScan_keeps (l : List ScanEntry) (s : State) :
  (emitScan l s).devState = s.devState ∧ (emitScan l s).errState = s.errState := by
  induction l generalizing s with
  | nil => exact ⟨(emitResult_keeps [] s).2.2.1, (emitResult_keeps [] s).2.2.2.1⟩
  | cons n l ih => 
    have := emitResult_keeps (scanStrings n) s
    have h := ih (emitResult (scanStrings n) s)
    exact ⟨h.1.trans this.2.2.1, h.2.trans this.2.2.2.1⟩

theorem emitCurrentState_keeps (d) (s : State) : (emitCurrentState d s).devState = s.devState ∧ (emitCurrentState d s).errState = s.errState := by
  rw [emitCurrentState, emit_of_le _ _ _ (by simp [payloadMax])]; exact ⟨rfl, rfl⟩
theorem broadcast_keeps (s : State) : (broadcast s).devState = s.devState ∧ (broadcast s).errState = s.errState := emitCurrentState_keeps _ _
theorem setError_regs (e) (s : State) : (setError e s).devState = s.devState ∧ (setError e s).errState = e := by
  unfold setError; rw [emit_of_le _ _ _ (by simp [payloadMax])]; exact ⟨rfl, rfl⟩

theorem rederive_regs (s : State) : (rederiveAndBroadcast s).devState = derivedState s.nextStatus ∧ (rederiveAndBroadcast s).errState = s.errState := by
  have := broadcast_keeps (s.askStatus.setDev (derivedState s.nextStatus))
  exact ⟨this.1, this.2⟩

theorem connectFailed_regs (s : State) : (raise .connectionFailed s).devState = .ready ∧ (raise .connectionFailed s).errState = .unableToConnect := by
  have := setError_regs .unableToConnect (broadcast (s.setDev .ready))
  have h := broadcast_keeps (s.setDev .ready)
  exact ⟨this.1.trans h.1, this.2⟩

theorem connectSuccess_regs (x y) (s : State) : (connectSuccess x y s).devState = .provisioned ∧ (connectSuccess x y s).errState = .none := by
  unfold connectSuccess
  dsimp only
  exact broadcast_keeps _

theorem connectWiFi_regs (x y) (s : State) :
  (s.nextConnect = .success ∧ (connectWiFi x y s).devState = .provisioned ∧ (connectWiFi x y s).errState = .none) ∨
  (s.nextConnect = .failure ∧ (connectWiFi x y s).devState = .ready ∧ (connectWiFi x y s).errState = .unableToConnect) := by
  unfold connectWiFi
  dsimp only
  split
  · exact Or.inl ⟨‹_›, connectSuccess_regs _ _ _⟩
  · exact Or.inr ⟨‹_›, connectFailed_regs _⟩

theorem derived_settled (st) : derivedState st ≠ .provisioning := by unfold derivedState; split <;> simp

theorem doRequestState_regs (s : State) : (doRequestState s).devState = derivedState s.nextStatus ∧ (doRequestState s).errState = s.errState := by
  unfold doRequestState
  dsimp only
  have h := rederive_regs s
  split
  · have := emitResult_keeps (urlStrings s.nextStatus.ip) (rederiveAndBroadcast s)
    exact ⟨this.2.2.1.trans h.1, this.2.2.2.1.trans h.2⟩
  · exact h

theorem sendWifi_regs (w) (s : State) :
  ((sendWifiAction w s).devState = .provisioned ∧ (sendWifiAction w s).errState = .none) ∨
  ((sendWifiAction w s).devState = .ready ∧ (sendWifiAction w s).errState = .unableToConnect) := by
  unfold sendWifiAction
  dsimp only
  rcases connectWiFi_regs w.ssid w.password s with ⟨h, h1⟩ | ⟨h, h1⟩
  · simp only [h]
    have := emitResult_keeps (urlStrings (connectWiFi w.ssid w.password s).nextStatus.ip) (connectWiFi w.ssid w.password s).askStatus
    exact Or.inl ⟨this.2.2.1.trans h1.1, this.2.2.2.1.trans h1.2⟩
  · simp only [h]
    exact Or.inr h1

/-- The registers after an instruction (R25, R26, R198). -/
theorem exec_regs {i : Instr} {s t : State} (h : exec i s = .next t) :
   (t.devState = s.devState ∨ ((∃ a, i = .rpcRequestState a ∨ i = .rpcSendWiFi a) ∧ DevSettled t)) ∧
   (t.errState = s.errState ∨ (∃ c a, i = .rpcUnknown c a) ∧ t.errState = .unknownRpc ∨ (∃ a, i = .rpcSendWiFi a) ∧ (t.errState = .unableToConnect ∨ t.errState = .none) ∨ (∃ e, i = .txErrorState e)) := by
  cases i with
  | rxCurrentState v p => injection h with h; subst h; exact ⟨Or.inl rfl, Or.inl rfl⟩
  | rxErrorState v p => injection h with h; subst h; exact ⟨Or.inl rfl, Or.inl rfl⟩
  | rxRpcResult v p => injection h with h; subst h; exact ⟨Or.inl rfl, Or.inl rfl⟩
  | rpcEmpty => injection h with h; subst h; exact ⟨Or.inl rfl, Or.inl rfl⟩
  | rpcForeignVersion v p => injection h with h; subst h; exact ⟨Or.inl rfl, Or.inl rfl⟩
  | rxUnassignedType v ty p => injection h with h; subst h; exact ⟨Or.inl rfl, Or.inl rfl⟩
  | rpcSendWiFi args =>
    have := (complete_next h).1; subst this
    unfold doSendWiFi
    split
    · exact ⟨Or.inl rfl, Or.inl rfl⟩
    · rename_i w _
      rcases sendWifi_regs w s with ⟨h1, h2⟩ | ⟨h1, h2⟩
      · exact ⟨Or.inr ⟨⟨args, Or.inr rfl⟩, by rw [DevSettled, h1]; simp⟩, Or.inr (Or.inr (Or.inl ⟨⟨args, rfl⟩, Or.inr h2⟩))⟩
      · exact ⟨Or.inr ⟨⟨args, Or.inr rfl⟩, by rw [DevSettled, h1]; simp⟩, Or.inr (Or.inr (Or.inl ⟨⟨args, rfl⟩, Or.inl h2⟩))⟩
  | rpcRequestState args => 
    have := (complete_next h).1; subst this
    have h := doRequestState_regs s
    exact ⟨Or.inr ⟨⟨args, Or.inl rfl⟩, by rw [DevSettled, h.1]; exact derived_settled _⟩, Or.inl h.2⟩
  | rpcRequestInfo args => 
    have := (complete_next h).1; subst this
    have := emitResult_keeps (infoStrings s.cfg) s
    exact ⟨Or.inl this.2.2.1, Or.inl this.2.2.2.1⟩
  | rpcRequestScan args => 
    have := (complete_next h).1; subst this
    have := emitScan_keeps s.nextScan s.askScan
    exact ⟨Or.inl this.1, Or.inl this.2⟩
  | rpcUnknown cmd args => 
    have := (complete_next h).1; subst this
    have := setError_regs .unknownRpc s
    exact ⟨Or.inl this.1, Or.inr (Or.inl ⟨⟨cmd, args, rfl⟩, this.2⟩)⟩
  | txCurrentState d => 
    have := (complete_next h).1; subst this
    have := emitCurrentState_keeps d s
    exact ⟨Or.inl this.1, Or.inl this.2⟩
  | txErrorState e => 
    have := (complete_next h).1; subst this
    have := setError_regs e s
    exact ⟨Or.inl this.1, Or.inr (Or.inr (Or.inr ⟨e, rfl⟩))⟩
  | txRpcResult l => 
    have := (complete_next h).1; subst this
    have := emitResult_keeps l s
    exact ⟨Or.inl this.2.2.1, Or.inl this.2.2.2.1⟩

/-- Inversion of `feed`: no register is written and nothing is sent, or a frame was dispatched. -/
theorem feedVerdict_next {v : Except Reject Frame} {s t : State} (h : feedVerdict v s = .next t) :
   (t.devState = s.devState ∧ t.errState = s.errState ∧ t.cfg = s.cfg ∧ t.env = s.env ∧ ∃ evs, t.trace = s.trace ++ evs ∧ ∀ b, Event.tx b ∉ evs) ∨
   ∃ fr, v = .ok fr ∧ dispatch fr (s.setAcc []) = .next t := by
  unfold feedVerdict at h
  split at h
  any_goals (injection h with h; subst h; left; refine ⟨rfl, rfl, rfl, rfl, ?_⟩)
  · exact ⟨[], by simp, by simp⟩
  · exact ⟨[], by simp, by simp⟩
  · exact ⟨[], by simp [raise], by simp⟩
  · exact ⟨_, rfl, by simp⟩
  · exact ⟨_, rfl, by simp⟩
  · exact Or.inr ⟨_, rfl, h⟩

theorem doBegin_regs (s : State) : ((doBegin s).devState = s.devState ∧ (doBegin s).errState = s.errState) ∨ ((doBegin s).devState = .provisioned ∧ (doBegin s).errState = .none) ∨ ((doBegin s).devState = .ready ∧ (doBegin s).errState = .unableToConnect) := by
  unfold doBegin
  dsimp only
  split
  · exact Or.inl ⟨rfl, rfl⟩
  · right
    rcases connectWiFi_regs _ _ _ with ⟨-, h⟩ | ⟨-, h⟩
    · exact Or.inl h
    · exact Or.inr h

/-- The registers after a step (R201, R252). -/
theorem step_regs {s t : State} (h : step s = .next t) : (t.devState = s.devState ∨ DevSettled t) ∧ (t.errState = s.errState ∨ ErrProduced t) := by
  obtain ⟨hwf, ⟨-, rfl⟩ | ⟨op, rest, hs, hp⟩⟩ := step_next h
  · exact ⟨Or.inl rfl, Or.inl rfl⟩
  cases op with
  | reset => injection hp with hp; subst hp; exact ⟨Or.inr (by simp), Or.inr (Or.inl rfl)⟩
  | begin => 
    have := (complete_next hp).1; subst this
    rcases doBegin_regs { s with env := { s.env with schedule := rest } } with h | h | h
    · exact ⟨Or.inl h.1, Or.inl h.2⟩
    · exact ⟨Or.inr (by rw [DevSettled, h.1]; simp), Or.inr (Or.inl h.2)⟩
    · exact ⟨Or.inr (by rw [DevSettled, h.1]; simp), Or.inr (Or.inr (Or.inr h.2))⟩
  | tick => 
    have := (complete_next hp).1; subst this
    have := rederive_regs (State.record .tick { s with env := { s.env with schedule := rest } })
    exact ⟨Or.inr (by rw [DevSettled, doTick, this.1]; exact derived_settled _), Or.inl this.2⟩
  | statusText => have := (complete_next hp).1; subst this; exact ⟨Or.inl rfl, Or.inl rfl⟩
  | feed b =>
    rcases feedVerdict_next hp with ⟨h1, h2, -⟩ | ⟨fr, -, h⟩
    · exact ⟨Or.inl h1, Or.inl h2⟩
    · obtain ⟨h1, h2⟩ := exec_regs h
      refine ⟨h1.imp id (fun h => h.2), ?_⟩
      rcases h2 with h2 | ⟨-, h2⟩ | ⟨-, h2⟩ | ⟨e, h2⟩
      · exact Or.inl h2
      · exact Or.inr (Or.inr (Or.inl h2))
      · exact Or.inr (h2.elim (fun h => Or.inr (Or.inr h)) Or.inl)
      · have := mux_inbound ((State.setAcc [] (State.setAcc (s.acc ++ [b]) (State.record (.feed b) { s with env := { s.env with schedule := rest } })))).cfg fr
        rw [h2] at this; cases this

end Sys2Proof.Machine
end

