-- ==== Sys2Proof/Laws/Stream.lean ====
section
/-! SUPPORT. Streams of bytes: what feeding the bytes of a header, a body and a frame leaves. -/

namespace Sys2Proof.Machine

/-- The verdict on the buffer is a wait: below the gate, or an incomplete aligned frame (R121, R143). -/
def Waits (c : Cfg) (acc : Bytes) : Prop := acc.length < 9 ∨ (9 ≤ acc.length ∧ slice acc 0 6 = c.magic ∧ declaredLen acc ≤ 200 ∧ acc.length < 9 + declaredLen acc + 1)

/-- The state after bytes have been fed and only stored. -/
def fedWith (bytes : Bytes) (acc : Bytes) (rest : List EnvOp) (s : State) : State :=
  { s with acc := acc, trace := s.trace ++ bytes.map Event.feed, env := { s.env with schedule := rest } }

theorem step_waits {b : Byte} {rest} {s : State} (h : Next (.feed b) rest s) (hw : Waits s.cfg (s.acc ++ [b])) : step s = .next (appended b rest s) := by
  rw [step_of_feed h]
  rcases hw with h1 | ⟨h1, h2, h3, h4⟩
  · rw [checkFrame_gate h1]; rfl
  · rw [checkFrame_incomplete h1 h2 h3 h4]; rfl

theorem runSteps_waits (bytes : Bytes) (s : State) (rest) (hw : s.cfg.wf = true) (hs : s.env.schedule = feedsOf bytes ++ rest)
   (h : ∀ k, k < bytes.length → Waits s.cfg (s.acc ++ bytes.take (k+1))) :
   runSteps bytes.length s = .next (fedWith bytes (s.acc ++ bytes) rest s) := by
  induction bytes generalizing s with
  | nil => 
    simp [feedsOf] at hs; subst hs
    simp [runSteps, fedWith]
  | cons b bs ih =>
    have hn : Next (.feed b) (feedsOf bs ++ rest) s := ⟨hw, by rw [hs]; rfl⟩
    have h1 := step_waits hn (by simpa using h 0 (by simp))
    rw [List.length_cons, runSteps_succ _ h1, ih (appended b (feedsOf bs ++ rest) s) hw rfl]
    · simp [appended, fedWith, begunWith]
    · intro k hk
      have := h (k+1) (by simpa using hk)
      simpa [appended, begunWith] using this

theorem waits_header (c : Cfg) (hm : c.magic.length = 6) (v t len : Byte) (more : Bytes) (hl : len.toNat ≤ 200) (h : more.length ≤ len.toNat) : Waits c (c.magic ++ [v, t, len] ++ more) := by
  have h8 : byteAt (c.magic ++ [v, t, len] ++ more) 8 = len := by
    rw [List.append_assoc, byteAt_append_right _ _ _ (by omega), hm]; rfl
  refine Or.inr ⟨by simp [hm]; omega, ?_, by rw [declaredLen, h8]; exact hl, by rw [declaredLen, h8]; simp [hm]; omega⟩
  rw [List.append_assoc, slice_append_left _ _ _ _ (by omega), ← hm, slice_zero_length]

theorem waits_prefix (c : Cfg) (hm : c.magic.length = 6) (v t len : Byte) (more : Bytes) (hl : len.toNat ≤ 200) (h : more.length ≤ len.toNat) (k : Nat) :
   Waits c ((c.magic ++ [v, t, len] ++ more).take k) := by
  by_cases hk : k < 9
  · left; simp; omega
  · rw [List.take_append]
    have : (c.magic ++ [v,t,len]).length = 9 := by simp [hm]
    rw [List.take_of_length_le (by omega)]
    exact waits_header c hm v t len _ hl (by simp; omega)

theorem runSteps_header (s : State) (v t len : Byte) (more : Bytes) (rest) (hw : s.cfg.wf = true) (ha : s.acc = []) (hl : len.toNat ≤ 200) (h : more.length ≤ len.toNat)
   (hs : s.env.schedule = feedsOf (s.cfg.magic ++ [v, t, len] ++ more) ++ rest) :
   runSteps (9 + more.length) s = .next (fedWith (s.cfg.magic ++ [v, t, len] ++ more) (s.cfg.magic ++ [v, t, len] ++ more) rest s) := by
  have hm := Cfg.wf_magic hw
  have := runSteps_waits _ s rest hw hs (fun k _ => by rw [ha, List.nil_append]; exact waits_prefix s.cfg hm v t len more hl h (k+1))
  rw [ha, List.nil_append] at this
  rw [← this]; congr 1; simp [hm]; omega

theorem feedsOf_append (a b : Bytes) : feedsOf (a ++ b) = feedsOf a ++ feedsOf b := by simp [feedsOf]

/-- A frame body and one more byte, fed to an empty block: one verdict, at that byte (R143 to R146). -/
theorem runSteps_body (s : State) (v t : Byte) (p : Bytes) (x : Byte) (rest) (hw : s.cfg.wf = true) (ha : s.acc = []) (hp : p.length ≤ 200)
   (hs : s.env.schedule = feedsOf (frameBody s.cfg v t p ++ [x]) ++ rest) :
   runSteps (p.length + 10) s = feedVerdict (if sum8 (frameBody s.cfg v t p) = x then .ok ⟨v, t, p⟩ else .error .checksumMismatch)
     (fedWith (frameBody s.cfg v t p ++ [x]) (frameBody s.cfg v t p ++ [x]) rest s) := by
  have hm := Cfg.wf_magic hw
  have hl : (BitVec.ofNat 8 p.length).toNat = p.length := by simp; omega
  rw [feedsOf_append, List.append_assoc] at hs
  have h1 := runSteps_header s v t (BitVec.ofNat 8 p.length) p (feedsOf [x] ++ rest) hw ha (by omega) (by omega) hs
  rw [show p.length + 10 = (9 + p.length) + 1 by omega, runSteps_add h1, runSteps_one]
  refine Eq.trans (step_of_feed (b := x) (rest := rest) ⟨by exact hw, by rfl⟩) ?_
  have := checkFrame_body s.cfg v t p x hm hp
  rw [frameBody] at this ⊢
  simp only [fedWith] at *
  rw [this]
  simp [appended, begunWith]

/-- A change at an offset of 6 or more, other than 8, leaves a frame body of the same payload length (R225). -/
theorem body_set (c : Cfg) (hm : c.magic.length = 6) (v t : Byte) (p : Bytes) (k : Nat) (x : Byte) (h6 : 6 ≤ k) (h8 : k ≠ 8) :
   ∃ v' t' p', p'.length = p.length ∧ (frameBody c v t p).set k x = frameBody c v' t' p' := by
  have e : ∀ j, (frameBody c v t p).set (6 + j) x = c.magic ++ (v :: t :: BitVec.ofNat 8 p.length :: p).set j x := by
    intro j
    rw [frameBody, List.append_assoc, List.set_append_right _ _ (by omega)]
    simp [hm]
  obtain ⟨j, rfl⟩ := Nat.exists_eq_add_of_le h6
  rw [e]
  match j with
  | 0 => exact ⟨x, t, p, rfl, by simp [frameBody]⟩
  | 1 => exact ⟨v, x, p, rfl, by simp [frameBody]⟩
  | 2 => omega
  | j + 3 => exact ⟨v, t, p.set j x, by simp, by simp [frameBody]⟩

theorem slice_drop_zero (l : Bytes) (q n : Nat) : slice (l.drop q) 0 n = slice l q (q + n) := by
  simp [slice]

end Sys2Proof.Machine
end

