-- ==== Sys2Proof/Tests/Slice0.lean ====
section
/-! SUPPORT. Tests. Expected bytes are copied from spec/95_test_vectors.md and from the worked examples of the rules named in
each comment. -/

namespace Sys2Proof.Tests

open Sys2Proof.Machine

/-! ## Helpers -/

/-- The answer of the spec's vectors for a connected network. -/
def upStatus (ip : Bytes) : NetStatus := ⟨true, ip, [0x68, 0x6F, 0x6D, 0x65], -52⟩
/-- The answer for a network that is down. -/
def downStatus : NetStatus := ⟨false, [], [], 0⟩
/-- `"192.168.1.50"`. -/
def ip50 : Bytes := [0x31, 0x39, 0x32, 0x2E, 0x31, 0x36, 0x38, 0x2E, 0x31, 0x2E, 0x35, 0x30]
/-- `"10.0.0.2"`. -/
def ip2 : Bytes := [0x31, 0x30, 0x2E, 0x30, 0x2E, 0x30, 0x2E, 0x32]
/-- `"home"`. -/
def home : Bytes := [0x68, 0x6F, 0x6D, 0x65]
/-- `"secret"`. -/
def secret : Bytes := [0x73, 0x65, 0x63, 0x72, 0x65, 0x74]
/-- The state after reset with an environment of the test's own. -/
def stateIn (env : Env) : State := { State.reset with env := env }
/-- The state in which the next step feeds the last byte of `bytes`. -/
def beforeLast (bytes : Bytes) (env : Env) : State := loadFrame bytes (stateIn env)
/-- The state in which `op` is the next operation. -/
def before (op : EnvOp) (env : Env) : State := stateIn { env with schedule := [op] }
/-- What the tests look at after a step: the accumulator, the two registers, the frames and the log entries. -/
structure Seen where
  acc : Bytes
  dev : DevState
  err : ErrState
  frames : List Bytes
  logs : List LogTag
  deriving DecidableEq, Repr
/-- What a step that completes leaves to see. -/
def seen (o : Host.Outcome State Fault Refusal) : Option Seen :=
  match o with
  | .next t => some ⟨t.acc, t.devState, t.errState, t.txFrames, t.logs⟩
  | .fault _ => none
  | .refused _ => none
/-- The collaborator calls after a step. -/
def called (o : Host.Outcome State Fault Refusal) : List Event :=
  match o with
  | .next t => t.calls
  | .fault _ => []
  | .refused _ => []

/-- `A_READY` (95_test_vectors.md). -/
def aReady : Bytes := [0x49, 0x4D, 0x50, 0x52, 0x4F, 0x56, 0x01, 0x01, 0x01, 0x02, 0xE2]
/-- `A_PROVING`. -/
def aProving : Bytes := [0x49, 0x4D, 0x50, 0x52, 0x4F, 0x56, 0x01, 0x01, 0x01, 0x03, 0xE3]
/-- `A_PROVED`. -/
def aProved : Bytes := [0x49, 0x4D, 0x50, 0x52, 0x4F, 0x56, 0x01, 0x01, 0x01, 0x04, 0xE4]
/-- `A_EUNK`. -/
def aUnknown : Bytes := [0x49, 0x4D, 0x50, 0x52, 0x4F, 0x56, 0x01, 0x02, 0x01, 0x02, 0xE3]
/-- `A_ECONN`. -/
def aConn : Bytes := [0x49, 0x4D, 0x50, 0x52, 0x4F, 0x56, 0x01, 0x02, 0x01, 0x03, 0xE4]
/-- `A_END`. -/
def aEnd : Bytes := [0x49, 0x4D, 0x50, 0x52, 0x4F, 0x56, 0x01, 0x04, 0x00, 0xE2]
/-- `A_INFO`. -/
def aInfo : Bytes := [0x49, 0x4D, 0x50, 0x52, 0x4F, 0x56, 0x01, 0x04, 0x0E, 0x02, 0x66, 0x77, 0x01, 0x31, 0x04, 0x63,
  0x68, 0x69, 0x70, 0x03, 0x64, 0x65, 0x76, 0xEB]
/-- `A_URL50`. -/
def aUrl50 : Bytes := [0x49, 0x4D, 0x50, 0x52, 0x4F, 0x56, 0x01, 0x04, 0x14, 0x13, 0x68, 0x74, 0x74, 0x70, 0x3A, 0x2F,
  0x2F, 0x31, 0x39, 0x32, 0x2E, 0x31, 0x36, 0x38, 0x2E, 0x31, 0x2E, 0x35, 0x30, 0xBC]
/-- `A_URL2`. -/
def aUrl2 : Bytes := [0x49, 0x4D, 0x50, 0x52, 0x4F, 0x56, 0x01, 0x04, 0x10, 0x0F, 0x68, 0x74, 0x74, 0x70, 0x3A, 0x2F,
  0x2F, 0x31, 0x30, 0x2E, 0x30, 0x2E, 0x30, 0x2E, 0x32, 0xD6]
/-- `Q_WIFI`. -/
def qWifi : Bytes := [0x49, 0x4D, 0x50, 0x52, 0x4F, 0x56, 0x01, 0x03, 0x0D, 0x01, 0x04, 0x68, 0x6F, 0x6D, 0x65, 0x06,
  0x73, 0x65, 0x63, 0x72, 0x65, 0x74, 0x28]

/-! ## Well-formedness refuses an ill-formed term for each check -/

theorem test_wf_ref : Cfg.ref.wf = true := by decide
theorem test_wf_magic_length : { Cfg.ref with magic := [0x49] }.wf = false := by decide
theorem test_wf_type_codes : { Cfg.ref with typeRpc := 0x01 }.wf = false := by decide
theorem test_wf_cmd_ids : { Cfg.ref with cmdRequestInfo := 0x01 }.wf = false := by decide
theorem test_wf_cmd_not_99 : { Cfg.ref with cmdRequestInfo := 0x99 }.wf = false := by decide
theorem test_wf_state_codes : { Cfg.ref with stReady := 0x03 }.wf = false := by decide
theorem test_wf_error_codes : { Cfg.ref with errUnknown := 0x00 }.wf = false := by decide
set_option maxRecDepth 20000 in
theorem test_wf_payload_over_ceiling :
    (Instr.rxCurrentState 1 (List.replicate 201 0)).wf Cfg.ref = false := by decide
set_option maxRecDepth 20000 in
theorem test_wf_args_over_ceiling : (Instr.rpcSendWiFi (List.replicate 200 0)).wf Cfg.ref = false := by decide
theorem test_wf_unknown_is_no_command : (Instr.rpcUnknown 0x02 []).wf Cfg.ref = false := by decide
theorem test_wf_foreign_is_foreign : (Instr.rpcForeignVersion 0x01 [3]).wf Cfg.ref = false := by decide
theorem test_wf_unassigned_is_unassigned : (Instr.rxUnassignedType 0x01 0x03 [3]).wf Cfg.ref = false := by decide
theorem test_wf_tx_error_is_produced : (Instr.txErrorState .invalidRpc).wf Cfg.ref = false := by decide
theorem test_wf_result_shape : (Instr.txRpcResult [[0x61], [0x62]]).wf Cfg.ref = false := by decide
set_option maxRecDepth 20000 in
theorem test_wf_result_size :
    (Instr.txRpcResult [httpText ++ List.replicate 248 0x31]).wf Cfg.ref = false := by decide
theorem test_wf_result_decimal : (Instr.txRpcResult [home, [0x30, 0x37], yesText]).wf Cfg.ref = false := by decide

/-! ## Decoding: words written out from the encodings (R81, R84, R86; 95_test_vectors.md) -/

theorem test_decode_rx_current_state : (decode Cfg.ref aReady).toOption = some (.rxCurrentState 0x01 [0x02]) := by decide
/-- V-DSP-1. -/
theorem test_decode_rx_error_state :
    (decode Cfg.ref [0x49, 0x4D, 0x50, 0x52, 0x4F, 0x56, 0x01, 0x02, 0x01, 0x03, 0xE4]).toOption
      = some (.rxErrorState 0x01 [0x03]) := by decide
/-- V-ENC-1. -/
theorem test_decode_rx_rpc_result : (decode Cfg.ref aEnd).toOption = some (.rxRpcResult 0x01 []) := by decide
/-- `Q_EMPTY`, V-DEC-1. -/
theorem test_decode_empty :
    (decode Cfg.ref [0x49, 0x4D, 0x50, 0x52, 0x4F, 0x56, 0x01, 0x03, 0x00, 0xE1]).toOption = some .rpcEmpty := by decide
theorem test_decode_send_wifi :
    (decode Cfg.ref qWifi).toOption = some (.rpcSendWiFi (0x04 :: home ++ 0x06 :: secret)) := by decide
/-- `Q_STATE`. -/
theorem test_decode_request_state :
    (decode Cfg.ref [0x49, 0x4D, 0x50, 0x52, 0x4F, 0x56, 0x01, 0x03, 0x01, 0x02, 0xE4]).toOption
      = some (.rpcRequestState []) := by decide
/-- V-DSP-7. -/
theorem test_decode_request_info_extra :
    (decode Cfg.ref [0x49, 0x4D, 0x50, 0x52, 0x4F, 0x56, 0x01, 0x03, 0x03, 0x03, 0xDE, 0xAD, 0x72]).toOption
      = some (.rpcRequestInfo [0xDE, 0xAD]) := by decide
/-- `Q_SCAN`. -/
theorem test_decode_request_scan :
    (decode Cfg.ref [0x49, 0x4D, 0x50, 0x52, 0x4F, 0x56, 0x01, 0x03, 0x01, 0x04, 0xE6]).toOption
      = some (.rpcRequestScan []) := by decide
/-- V-DEC-8: a payload may contain `MAGIC`. -/
theorem test_decode_unknown_with_magic :
    (decode Cfg.ref [0x49, 0x4D, 0x50, 0x52, 0x4F, 0x56, 0x01, 0x03, 0x07, 0x99, 0x49, 0x4D, 0x50, 0x52, 0x4F, 0x56,
      0x5E]).toOption = some (.rpcUnknown 0x99 [0x49, 0x4D, 0x50, 0x52, 0x4F, 0x56]) := by decide
/-- V-DSP-2. -/
theorem test_decode_foreign_version :
    (decode Cfg.ref [0x49, 0x4D, 0x50, 0x52, 0x4F, 0x56, 0x02, 0x03, 0x01, 0x99, 0x7C]).toOption
      = some (.rpcForeignVersion 0x02 [0x99]) := by decide
/-- V-DSP-1. -/
theorem test_decode_unassigned_type :
    (decode Cfg.ref [0x49, 0x4D, 0x50, 0x52, 0x4F, 0x56, 0x01, 0x7F, 0x01, 0x03, 0x61]).toOption
      = some (.rxUnassignedType 0x01 0x7F [0x03]) := by decide
/-- V-ENC-2 and the frame table: the outbound rows. -/
theorem test_encode_outbound :
    [encode Cfg.ref (.txCurrentState .ready), encode Cfg.ref (.txErrorState .unableToConnect),
      encode Cfg.ref (.txRpcResult (infoStrings Cfg.ref))] = [aReady, aConn, aInfo] := by decide
set_option maxRecDepth 20000 in
/-- V-ENC-4: the largest frame, and the refused payload. -/
theorem test_encode_limits :
    ((encodeFrame Cfg.ref 1 4 (List.replicate 255 0x41)).map (fun f => (f.length, f.getLastD 0)),
      encodeFrame Cfg.ref 1 4 (List.replicate 256 0x41)) = (some (265, 0xA0), none) := by decide
/-- The table's word of `RPC.RequestInfo`, offset 0 in bits 7..0, and as the table prints it. -/
theorem test_table_word :
    (decodeTableWord 80 0x0300030156_4F52504D49, decodeTableWord 80 0x494D50524F5601030003)
      = (some (.rpcRequestInfo []), some (.rpcRequestInfo [])) := by decide
theorem test_table_word_runs :
    seen (step (State.reset.withFetchWord 80 0x494D50524F5601030003)) = some ⟨[], .ready, .none, [aInfo], []⟩ := by
  decide

/-! ## Helpers of the encoding (V-HLP) -/

theorem test_sum8 : (sum8 [], sum8 Cfg.ref.magic, sum8 [0xFF, 0xFF]) = (0x00, 0xDD, 0xFE) := by decide
set_option maxRecDepth 20000 in
theorem test_len_prefixed :
    (lenPrefixed [], lenPrefixed home, (lenPrefixed (List.replicate 300 0x61)).length)
      = ([0x00], 0x04 :: home, 256) := by decide
theorem test_sl : (sl [], sl [[], []]) = ([], [0x00, 0x00]) := by decide
theorem test_dec : (dec 0, dec 7, dec (-52), dec (-100), dec 100)
    = ([0x30], [0x37], [0x2D, 0x35, 0x32], [0x2D, 0x31, 0x30, 0x30], [0x31, 0x30, 0x30]) := by decide

/-! ## The accumulator and the decoder, one `feed` each -/

/-- V-ACC-1: below the gate nothing is compared. -/
theorem test_feed_gate :
    seen (step (beforeLast [0xAA, 0xBB, 0xCC, 0xDD, 0xEE, 0xFF, 0x00, 0x11] Env.initial))
      = some ⟨[0xAA, 0xBB, 0xCC, 0xDD, 0xEE, 0xFF, 0x00, 0x11], .ready, .none, [], []⟩ := by decide
/-- V-ACC-2: one drop per feed. -/
theorem test_feed_drop :
    seen (step (beforeLast [0xAA, 0xBB, 0xCC, 0xDD, 0xEE, 0xFF, 0x00, 0x11, 0x22] Env.initial))
      = some ⟨[0xBB, 0xCC, 0xDD, 0xEE, 0xFF, 0x00, 0x11, 0x22], .ready, .none, [], []⟩ := by decide
/-- V-ACC-3: aligned, waiting. -/
theorem test_feed_wait :
    seen (step (beforeLast [0x49, 0x4D, 0x50, 0x52, 0x4F, 0x56, 0x01, 0x03, 0x01] Env.initial))
      = some ⟨[0x49, 0x4D, 0x50, 0x52, 0x4F, 0x56, 0x01, 0x03, 0x01], .ready, .none, [], []⟩ := by decide
/-- V-DEC-3: 201 is over the ceiling (200 is not: V-DEC-2 below). -/
theorem test_feed_too_large :
    seen (step (beforeLast [0x49, 0x4D, 0x50, 0x52, 0x4F, 0x56, 0x01, 0x03, 0xC9] Env.initial))
      = some ⟨[], .ready, .none, [], [.lengthTooLarge]⟩ := by decide
/-- V-DEC-4. -/
theorem test_feed_checksum :
    seen (step (beforeLast [0x49, 0x4D, 0x50, 0x52, 0x4F, 0x56, 0x01, 0x03, 0x01, 0x03, 0xE4] Env.initial))
      = some ⟨[], .ready, .none, [], [.checksumMismatch]⟩ := by decide
set_option maxRecDepth 20000 in
/-- V-DEC-2: the largest accepted frame. -/
theorem test_feed_ceiling :
    seen (step (beforeLast ([0x49, 0x4D, 0x50, 0x52, 0x4F, 0x56, 0x01, 0x03, 0xC8] ++ List.replicate 200 0x00 ++ [0xA9])
      Env.initial)) = some ⟨[], .ready, .unknownRpc, [aUnknown], []⟩ := by decide

/-! ## Commands, one step each -/

/-- V-DSP-1: a heartbeat fed back is ignored. -/
theorem test_non_rpc : seen (step (beforeLast aReady Env.initial)) = some ⟨[], .ready, .none, [], []⟩ := by decide
/-- V-DSP-11. -/
theorem test_unknown :
    seen (step (beforeLast [0x49, 0x4D, 0x50, 0x52, 0x4F, 0x56, 0x01, 0x03, 0x01, 0x99, 0x7B] Env.initial))
      = some ⟨[], .ready, .unknownRpc, [aUnknown], []⟩ := by decide
/-- V-DSP-7. -/
theorem test_request_info :
    seen (step (beforeLast [0x49, 0x4D, 0x50, 0x52, 0x4F, 0x56, 0x01, 0x03, 0x03, 0x03, 0xDE, 0xAD, 0x72] Env.initial))
      = some ⟨[], .ready, .none, [aInfo], []⟩ := by decide
/-- V-DSP-4. -/
theorem test_request_state_up :
    seen (step (beforeLast [0x49, 0x4D, 0x50, 0x52, 0x4F, 0x56, 0x01, 0x03, 0x01, 0x02, 0xE4]
      { Env.initial with statusAnswers := [upStatus ip50] }))
      = some ⟨[], .provisioned, .none, [aProved, aUrl50], []⟩ := by decide
/-- V-DSP-5. -/
theorem test_request_state_down :
    seen (exec (.rpcRequestState []) { stateIn { Env.initial with statusAnswers := [downStatus] } with
      devState := .provisioned }) = some ⟨[], .ready, .none, [aReady], []⟩ := by decide
set_option maxRecDepth 20000 in
/-- V-DSP-6: the URL is too long by one byte. -/
theorem test_request_state_oversize :
    seen (exec (.rpcRequestState []) (stateIn { Env.initial with
      statusAnswers := [upStatus (List.replicate 248 0x31)] }))
      = some ⟨[], .provisioned, .none, [aProved], [.encoderOversize]⟩ := by decide
/-- V-DSP-8. -/
theorem test_request_scan :
    seen (exec (.rpcRequestScan []) (stateIn { Env.initial with
      scanAnswers := [[⟨home, -52, false⟩, ⟨[0x63, 0x61, 0x66, 0x65], -71, true⟩]] }))
      = some ⟨[], .ready, .none,
        [[0x49, 0x4D, 0x50, 0x52, 0x4F, 0x56, 0x01, 0x04, 0x0C, 0x04, 0x68, 0x6F, 0x6D, 0x65, 0x03, 0x2D, 0x35, 0x32, 0x02,
          0x4E, 0x4F, 0xD1],
         [0x49, 0x4D, 0x50, 0x52, 0x4F, 0x56, 0x01, 0x04, 0x0D, 0x04, 0x63, 0x61, 0x66, 0x65, 0x03, 0x2D, 0x37, 0x31, 0x03,
          0x59, 0x45, 0x53, 0x0E], aEnd], []⟩ := by decide
/-- V-DSP-10: the bounds checks. -/
theorem test_parse_wifi :
    [parseWifi [], parseWifi [0x00], parseWifi [0x00, 0x00], parseWifi (0x04 :: home),
      parseWifi (0x04 :: home ++ [0x06, 0x73, 0x65, 0x63]), parseWifi [0xFF, 0x61],
      parseWifi [0x01, 0x61, 0x01, 0x62, 0xEE, 0xEE]]
      = [none, none, some ⟨[], []⟩, none, none, none, some ⟨[0x61], [0x62]⟩] := by decide
/-- Program P3. -/
theorem test_send_wifi_success :
    seen (step (beforeLast qWifi { Env.initial with
      connectAnswers := [.success], statusAnswers := [upStatus ip50] }))
      = some ⟨[], .provisioned, .none, [aProving, aProved, aUrl50], []⟩ := by decide
/-- Program P3, the calls in their order. -/
theorem test_send_wifi_calls :
    called (exec (.rpcSendWiFi (0x04 :: home ++ 0x06 :: secret)) (stateIn { Env.initial with
      connectAnswers := [.success], statusAnswers := [upStatus ip50] }))
      = [.netConnect home secret 20 Cfg.ref.retryDelay .success, .credPut Cfg.ref.credKeySsid home,
        .credPut Cfg.ref.credKeyPassword secret, .netStatus (upStatus ip50)] := by decide
/-- Program P4. -/
theorem test_send_wifi_failure :
    seen (step (beforeLast qWifi { Env.initial with connectAnswers := [.failure] }))
      = some ⟨[], .ready, .unableToConnect, [aProving, aReady, aConn], []⟩ := by decide
/-- V-DSP-10, first row: a short payload is dropped silently. -/
theorem test_send_wifi_malformed :
    seen (exec (.rpcSendWiFi []) (stateIn Env.initial)) = some ⟨[], .ready, .none, [], []⟩ := by decide
theorem test_tx_rows :
    [seen (exec (.txCurrentState .provisioning) State.reset), seen (exec (.txErrorState .unableToConnect) State.reset),
      seen (exec (.txRpcResult []) State.reset)]
      = [some ⟨[], .ready, .none, [aProving], []⟩, some ⟨[], .ready, .unableToConnect, [aConn], []⟩,
        some ⟨[], .ready, .none, [aEnd], []⟩] := by decide

/-! ## Operations -/

/-- V-SM-1. -/
theorem test_begin_empty_store :
    (seen (step (before .begin { Env.initial with credAnswers := [none] })),
      called (step (before .begin { Env.initial with credAnswers := [none] })))
      = (some ⟨[], .ready, .none, [], []⟩, [.credGet Cfg.ref.credKeySsid none]) := by decide
/-- V-SM-2. -/
theorem test_begin_success :
    seen (step (before .begin { Env.initial with credAnswers := [some home, some secret], connectAnswers := [.success] }))
      = some ⟨[], .provisioned, .none, [aProving, aProved], []⟩ := by decide
/-- V-SM-3: the password is absent. -/
theorem test_begin_no_password :
    called (step (before .begin { Env.initial with credAnswers := [some home, none], connectAnswers := [.failure] }))
      = [.credGet Cfg.ref.credKeySsid (some home), .credGet Cfg.ref.credKeyPassword none,
        .netConnect home [] 20 Cfg.ref.retryDelay .failure] := by decide
/-- V-SM-4. -/
theorem test_tick :
    [seen (step (before .tick { Env.initial with statusAnswers := [downStatus] })),
      seen (step (before .tick { Env.initial with statusAnswers := [upStatus ip2] }))]
      = [some ⟨[], .ready, .none, [aReady], []⟩, some ⟨[], .provisioned, .none, [aProved], []⟩] := by decide
/-- V-SM-8. -/
theorem test_status_text :
    (statusLine (upStatus ip50), statusLine downStatus)
      = ([0x57, 0x69, 0x46, 0x69, 0x3A, 0x20, 0x68, 0x6F, 0x6D, 0x65, 0x20, 0x28, 0x31, 0x39, 0x32, 0x2E, 0x31, 0x36, 0x38,
          0x2E, 0x31, 0x2E, 0x35, 0x30, 0x29],
         [0x57, 0x69, 0x46, 0x69, 0x3A, 0x20, 0x4E, 0x6F, 0x74, 0x20, 0x43, 0x6F, 0x6E, 0x6E, 0x65, 0x63, 0x74, 0x65,
          0x64]) := by decide
/-- U1: the call that never returns stops the operation. -/
theorem test_hang :
    step (before .tick { Env.initial with callsLeft := .left 1, statusAnswers := [downStatus] })
      = .fault .collaboratorNeverReturns := by rfl
/-- U6. -/
theorem test_refuses_ill_formed :
    step { State.reset with cfg := { Cfg.ref with cmdRequestInfo := 0x99 } } = .refused .illFormedConfig := by rfl
/-- R284. -/
theorem test_schedules :
    (legalSchedule false (bootSchedule [([0x49, 0x4D], true), ([], true)]), legalSchedule false [.tick, .begin],
      legalSchedule false [.begin, .begin]) = (true, false, false) := by decide

/-! ## Witnesses: for each statement with hypotheses, a concrete state and operands that meet them together -/

/-- The header of a frame of 200 payload bytes, the largest the decoder accepts. -/
def head200 : Bytes := [0x49, 0x4D, 0x50, 0x52, 0x4F, 0x56, 0x01, 0x03, 0xC8]
/-- A frame of 200 zero bytes: `RPC.Unknown` with command id 0 (V-DEC-2). -/
def frame200 : Bytes := head200 ++ List.replicate 200 0x00 ++ [0xA9]
/-- A frame of the largest length whose checksum is wrong. -/
def corrupt200 : Bytes := head200 ++ List.replicate 200 0x00 ++ [0xAA]
/-- `Q_EMPTY`, the shortest frame. -/
def qEmpty : Bytes := [0x49, 0x4D, 0x50, 0x52, 0x4F, 0x56, 0x01, 0x03, 0x00, 0xE1]
/-- A block that holds other registers than after reset and whose next operation is `op`. -/
def busy (op : EnvOp) (env : Env) : State :=
  { before op env with devState := .provisioned, errState := .unknownRpc, acc := [0x49, 0x4D] }
/-- The state whose next operation feeds the first of `bytes`. -/
def feeding (bytes : Bytes) : State := stateIn { Env.initial with schedule := feedsOf bytes }

theorem witness_ResetOperationRestoresBlock : Next .reset [] (busy .reset Env.initial) := by decide
theorem witness_StepRunsDecodedInstruction :
    Next (.feed 0x28) [] (beforeLast qWifi Env.initial) ∧
      decode Cfg.ref (qWifi.dropLast ++ [0x28]) = .ok (.rpcSendWiFi (0x04 :: home ++ 0x06 :: secret)) :=
  ⟨by decide, by rfl⟩
theorem witness_StepRefusesIllFormedAndIdles :
    { Cfg.ref with cmdRequestInfo := 0x99 }.wf = false ∧ Cfg.ref.wf = true ∧ State.reset.env.schedule = [] := by decide
/-- Eight bytes, one below the gate. -/
theorem witness_FeedBelowGateOnlyStores :
    let s := beforeLast (qEmpty.take 8) Env.initial
    Next (.feed 0x03) [] s ∧ (s.acc ++ [0x03]).length = 8 := by decide
/-- Nine bytes, the gate. -/
theorem witness_FeedMisalignedDropsFirstByte :
    let s := beforeLast [0xAA, 0x49, 0x4D, 0x50, 0x52, 0x4F, 0x56, 0x01, 0x03] Env.initial
    Next (.feed 0x03) [] s ∧ (s.acc ++ [0x03]).length = 9 ∧ slice (s.acc ++ [0x03]) 0 6 ≠ s.cfg.magic := by decide
/-- 201, one over the ceiling. -/
theorem witness_FeedOverCeilingClearsAndLogs :
    let s := beforeLast (head200.take 8 ++ [0xC9]) Env.initial
    Next (.feed 0xC9) [] s ∧ 9 ≤ (s.acc ++ [0xC9]).length ∧ slice (s.acc ++ [0xC9]) 0 6 = s.cfg.magic ∧
      declaredLen (s.acc ++ [0xC9]) = 201 := by decide
set_option maxRecDepth 20000 in
/-- The ceiling, one byte short. -/
theorem witness_FeedIncompleteFrameWaits :
    let s := beforeLast frame200.dropLast Env.initial
    Next (.feed 0x00) [] s ∧ slice (s.acc ++ [0x00]) 0 6 = s.cfg.magic ∧ declaredLen (s.acc ++ [0x00]) = 200 ∧
      (s.acc ++ [0x00]).length = 209 := by decide
set_option maxRecDepth 20000 in
theorem witness_FeedWrongChecksumClearsAndLogs :
    let s := beforeLast corrupt200 Env.initial
    Next (.feed 0xAA) [] s ∧ slice (s.acc ++ [0xAA]) 0 6 = s.cfg.magic ∧ declaredLen (s.acc ++ [0xAA]) = 200 ∧
      (s.acc ++ [0xAA]).length = 210 ∧
      sum8 (slice (s.acc ++ [0xAA]) 0 (9 + 200)) ≠ byteAt (s.acc ++ [0xAA]) (9 + 200) := by decide
set_option maxRecDepth 20000 in
/-- The longest and the shortest frame. -/
theorem witness_FeedRightChecksumDispatches :
    (let s := beforeLast frame200 Env.initial
     Next (.feed 0xA9) [] s ∧ slice (s.acc ++ [0xA9]) 0 6 = s.cfg.magic ∧ declaredLen (s.acc ++ [0xA9]) = 200 ∧
       (s.acc ++ [0xA9]).length = 210 ∧
       sum8 (slice (s.acc ++ [0xA9]) 0 (9 + 200)) = byteAt (s.acc ++ [0xA9]) (9 + 200)) ∧
    (let s := beforeLast qEmpty Env.initial
     Next (.feed 0xE1) [] s ∧ slice (s.acc ++ [0xE1]) 0 6 = s.cfg.magic ∧ declaredLen (s.acc ++ [0xE1]) = 0 ∧
       (s.acc ++ [0xE1]).length = 10 ∧ sum8 (slice (s.acc ++ [0xE1]) 0 9) = byteAt (s.acc ++ [0xE1]) 9) := by decide
set_option maxRecDepth 20000 in
theorem witness_EmittedFrameFillsTheBuffer :
    Cfg.ref.wf = true ∧ AccInv Cfg.ref frame200.dropLast ∧
      checkFrame Cfg.ref (frame200.dropLast ++ [0xA9]) = .ok ⟨0x01, 0x03, List.replicate 200 0x00⟩ :=
  ⟨by decide, by decide, by rfl⟩
set_option maxRecDepth 20000 in
/-- The fullest accumulator, 209 bytes, and the step that empties it. -/
theorem witness_StepKeepsAccumulatorInvariant :
    let s := beforeLast frame200 Env.initial
    AccInv s.cfg s.acc ∧ s.accLen = 209 ∧ (seen (step s)).isSome = true := by decide
theorem witness_StepNeverWritesConfiguration : (seen (step (beforeLast qWifi { Env.initial with
    connectAnswers := [.failure] }))).isSome = true := by decide
theorem witness_OtherOperationsKeepAccumulator :
    let env := { Env.initial with statusAnswers := [downStatus], credAnswers := [none] }
    Next .begin [] (busy .begin env) ∧ (seen (step (busy .begin env))).isSome = true ∧
      Next .tick [] (busy .tick env) ∧ (seen (step (busy .tick env))).isSome = true ∧
      Next .statusText [] (busy .statusText env) ∧ (seen (step (busy .statusText env))).isSome = true := by decide
theorem witness_InstructionsKeepAccumulatorAndConfiguration :
    (seen (exec (.rpcUnknown 0x99 []) State.reset)).isSome = true ∧
      (seen (exec (.txRpcResult [home]) State.reset)).isSome = true := by decide
theorem witness_StepOnlyAppendsToTrace :
    let s := busy .tick { Env.initial with statusAnswers := [downStatus] }
    s.env.schedule.head? ≠ some .reset ∧ (seen (step s)).isSome = true := by decide
theorem witness_StepKeepsDevStateSettled :
    let s := busy .tick { Env.initial with statusAnswers := [downStatus] }
    DevSettled s ∧ (seen (step s)).isSome = true := by decide
theorem witness_StepKeepsErrStateProduced :
    let s := busy .tick { Env.initial with statusAnswers := [downStatus] }
    ErrProduced s ∧ (seen (step s)).isSome = true := by decide
/-- A block with a frame already on `TX`, about to send another. -/
theorem witness_StepKeepsOutboundStreamWellFormed :
    let s := State.record (.tx aReady) (before .tick { Env.initial with statusAnswers := [downStatus] })
    TxWellFormed s ∧ (seen (step s)).map Seen.frames = some [aReady, aReady] := by
  refine ⟨fun bytes h => ⟨.txCurrentState .ready, rfl, rfl, ?_⟩, by decide⟩
  have h' : bytes ∈ [aReady] := h
  rw [List.mem_singleton.1 h']
  decide
theorem witness_OnlyStateCommandsWriteDevState :
    (seen (exec (.rpcRequestState []) (stateIn { Env.initial with statusAnswers := [upStatus ip2] }))).map Seen.dev
        = some .provisioned ∧
      (seen (exec (.rpcSendWiFi [0x00, 0x00]) { stateIn { Env.initial with connectAnswers := [.failure] } with
        devState := .provisioned })).map Seen.dev = some .ready := by decide
theorem witness_OnlyErrorRulesWriteErrState :
    let failing := stateIn { Env.initial with connectAnswers := [.failure] }
    let clearing := { stateIn { Env.initial with connectAnswers := [.success], statusAnswers := [upStatus ip2] } with
      errState := .unableToConnect }
    (seen (exec (.rpcUnknown 0x99 []) State.reset)).map Seen.err = some .unknownRpc ∧
      (seen (exec (.rpcSendWiFi [0x00, 0x00]) failing)).map Seen.err = some .unableToConnect ∧
      (seen (exec (.rpcSendWiFi [0x00, 0x00]) clearing)).map Seen.err = some .none := by decide
theorem witness_OnlyTwoConditionsSendFrames :
    Condition.stringTruncated ≠ .unknownCommand ∧ Condition.stringTruncated ≠ .connectionFailed := by decide
theorem witness_IgnoredFramesChangeNothing :
    (⟨0x01, 0x01, [0x02]⟩ : Frame).type ≠ Cfg.ref.typeRpc ∧ (⟨0x02, 0x03, [0x03]⟩ : Frame).version ≠ Cfg.ref.protoVersion ∧
      (⟨0x01, 0x03, []⟩ : Frame).payload = [] := by decide
/-- Two ids that are none of the four: 0, below them, and 5, above them. -/
theorem witness_UnknownCommandReportsUnknownRpc :
    AllReturn State.reset ∧ 0x00 ∉ Cfg.ref.cmdIds ∧ 0x05 ∉ Cfg.ref.cmdIds := by decide
theorem witness_RequestInfoSendsFourStrings : AllReturn (busy .tick Env.initial) := by decide
theorem witness_RequestStateRederivesAndReports :
    let up := stateIn { Env.initial with statusAnswers := [upStatus ip2] }
    let down := stateIn { Env.initial with statusAnswers := [downStatus] }
    AllReturn up ∧ up.nextStatus.connected = true ∧ AllReturn down ∧ down.nextStatus.connected = false := by decide
set_option maxRecDepth 20000 in
theorem witness_UrlResultSentIffShortEnough :
    (List.replicate 247 (0x31 : Byte)).length = 247 ∧ (List.replicate 248 (0x31 : Byte)).length = 248 := by decide
theorem witness_RequestScanReportsEachNetwork :
    let s := stateIn { Env.initial with scanAnswers := [[⟨home, -52, false⟩]] }
    AllReturn s ∧ s.nextScan = [⟨home, -52, false⟩] := by decide
/-- Each clause one byte short. -/
theorem witness_ShortWifiArgumentsAreDropped :
    CallsReturned State.reset ∧ ([] : Bytes).length < 1 ∧
      (0x04 :: home).length < 1 + (byteAt (0x04 :: home) 0).toNat + 1 ∧
      (let args := 0x04 :: home ++ 0x06 :: secret.dropLast
       args.length + 1 = 1 + (byteAt args 0).toNat + 1 + (byteAt args (1 + (byteAt args 0).toNat)).toNat) := by decide
set_option maxRecDepth 20000 in
theorem witness_WifiArgumentsReadBack : (List.replicate 255 (0x61 : Byte)).length ≤ 255 ∧ ([] : Bytes).length ≤ 255 := by
  decide
theorem witness_SendWifiSuccess :
    let s := stateIn { Env.initial with connectAnswers := [.success] }
    AllReturn s ∧ parseWifi (0x04 :: home ++ 0x06 :: secret) = some ⟨home, secret⟩ ∧ s.nextConnect = .success := by decide
theorem witness_SendWifiFailure :
    let s := stateIn { Env.initial with connectAnswers := [.failure] }
    AllReturn s ∧ parseWifi [0x00, 0x00] = some ⟨[], []⟩ ∧ s.nextConnect = .failure := by decide
theorem witness_OutboundRowsSendTheirFrames : AllReturn State.reset := by decide
theorem witness_InstructionsStopOnlyWhenACallHangs :
    AllReturn State.reset ∧ (stateIn { Env.initial with callsLeft := .left 0 }).env.callsLeft = .left 0 := by decide
theorem witness_BeginWithoutCredentials :
    let s := busy .begin { Env.initial with credAnswers := [none] }
    Next .begin [] s ∧ AllReturn s ∧ s.nextCred = none := by decide
/-- A stored SSID, with and without a stored password; each answer of the connect. -/
theorem witness_BeginWithCredentialsConnects :
    (let s := before .begin { Env.initial with credAnswers := [some home, some secret], connectAnswers := [.success] }
     let s1 := { s with env := s.env.popCred }
     Next .begin [] s ∧ AllReturn s ∧ s.nextCred = some home ∧ s1.nextCred = some secret ∧
       State.nextConnect { s1 with env := s1.env.popCred } = .success) ∧
    (let s := before .begin { Env.initial with credAnswers := [some [], none], connectAnswers := [.failure] }
     let s1 := { s with env := s.env.popCred }
     Next .begin [] s ∧ AllReturn s ∧ s.nextCred = some [] ∧ s1.nextCred = none ∧
       State.nextConnect { s1 with env := s1.env.popCred } = .failure) := by decide
theorem witness_TickBroadcastsDerivedState : Next .tick [] (busy .tick Env.initial) ∧ AllReturn (busy .tick Env.initial) := by
  decide
theorem witness_StatusTextIsPureRead :
    Next .statusText [] (busy .statusText Env.initial) ∧ AllReturn (busy .statusText Env.initial) := by decide
theorem witness_PartialFrameSurvivesTicks :
    let s := { stateIn { Env.initial with schedule := [.tick, .tick, .feed 0xE1] } with acc := qEmpty.dropLast }
    s.cfg.wf = true ∧ AllReturn s ∧ s.env.schedule = List.replicate 2 .tick ++ [.feed 0xE1] := by decide
set_option maxRecDepth 20000 in
/-- Every inbound row, at the largest size its well-formedness admits where it has one. -/
theorem witness_DecodeOfEncodeIsIdentity :
    Cfg.ref.wf = true ∧
      [Instr.rxCurrentState 0xFF (List.replicate 200 0), .rxErrorState 0 [], .rxRpcResult 1 [], .rpcEmpty,
        .rpcSendWiFi (List.replicate 199 0), .rpcRequestState [], .rpcRequestInfo [], .rpcRequestScan [],
        .rpcUnknown 0 [], .rpcForeignVersion 0 [], .rxUnassignedType 0 0 []].all
        (fun i => i.inbound && i.wf Cfg.ref) = true := by decide
theorem witness_EncodeOfDecodeIsIdentity :
    Cfg.ref.wf = true ∧ decode Cfg.ref qEmpty = .ok .rpcEmpty ∧ qEmpty.length = declaredLen qEmpty + 10 :=
  ⟨by decide, by rfl, by decide⟩
theorem witness_LoopedBackFramesAreIgnored :
    Cfg.ref.wf = true ∧ IsOutboundFrame Cfg.ref aReady ∧ decode Cfg.ref aReady = .ok (.rxCurrentState 0x01 [0x02]) :=
  ⟨by decide, ⟨.txCurrentState .ready, rfl, rfl, by decide⟩, by rfl⟩
set_option maxRecDepth 20000 in
theorem witness_FrameLayout : Cfg.ref.wf = true ∧ (List.replicate 255 (0x41 : Byte)).length ≤ 255 := by decide
theorem witness_MuxIsFirstMatchingRow : Cfg.ref.wf = true := by decide
theorem witness_StringListsAreReadable :
    (∀ x ∈ [home, ([] : Bytes)], x.length ≤ 255) ∧ sl [home, []] = sl [home, []] := by decide
set_option maxRecDepth 20000 in
/-- 255 bytes are sent, 256 are not, and a string that was cut never is. -/
theorem witness_ResultSentIffItFits :
    (seen (exec (.txRpcResult [List.replicate 254 0x41]) State.reset)).map (fun x => (x.frames.length, x.logs))
        = some (1, []) ∧
      (seen (exec (.txRpcResult [List.replicate 255 0x41]) State.reset)).map (fun x => (x.frames.length, x.logs))
        = some (0, [.encoderOversize]) ∧
      (seen (exec (.txRpcResult [List.replicate 256 0x41]) State.reset)).map (fun x => (x.frames.length, x.logs))
        = some (0, [.stringTruncated, .encoderOversize]) := by decide
theorem witness_ChecksumIsPlainSum : [0x01, 0x02, 0x03].Perm ([0x03, 0x01, 0x02] : Bytes) := by decide
set_option maxRecDepth 20000 in
/-- Payloads of 200 and of 201 bytes, the two sides of the ceiling. -/
theorem witness_EncodedFrameIsDispatchedOnce :
    (let p := List.replicate 200 (0x00 : Byte)
     let s := feeding (frameBytes Cfg.ref 0x01 0x03 p)
     s.cfg.wf = true ∧ s.acc = [] ∧ s.env.schedule = feedsOf (frameBytes s.cfg 0x01 0x03 p) ++ [] ∧ p.length ≤ 200) ∧
    (let p := List.replicate 201 (0x00 : Byte)
     let s := feeding (frameBytes Cfg.ref 0x01 0x03 p)
     s.cfg.wf = true ∧ s.acc = [] ∧ s.env.schedule = feedsOf (frameBytes s.cfg 0x01 0x03 p) ++ [] ∧
       200 < p.length ∧ p.length ≤ 255) := by decide
/-- The first and the last offset a change may have. -/
theorem witness_SingleByteCorruptionIsRejected :
    ∀ k ∈ [6, 7, 9, 10],
      let frame := frameBytes Cfg.ref 0x01 0x03 [0x03]
      let s := feeding (frame.set k 0x77)
      s.cfg.wf = true ∧ s.acc = [] ∧ [0x03].length ≤ 200 ∧ 6 ≤ k ∧ k ≠ 8 ∧ k < [0x03].length + 10 ∧
        (0x77 : Byte) ≠ byteAt frame k ∧ s.env.schedule = feedsOf (frame.set k 0x77) ++ [] := by decide
/-- A stream whose `MAGIC` is not yet complete with its header: position 2 of ten bytes. -/
theorem witness_UnalignedStreamKeepsLastEight :
    let stream : Bytes := [0x49, 0x4D, 0x49, 0x4D, 0x50, 0x52, 0x4F, 0x56, 0x01, 0x03]
    let s := feeding stream
    s.cfg.wf = true ∧ s.acc = [] ∧ s.env.schedule = feedsOf stream ++ [] ∧
      (∀ q < 2, q + 9 ≤ stream.length → ¬ magicAt s.cfg stream q) ∧ stream.length < 2 + 9 := by decide
/-- Garbage that ends in the first bytes of `MAGIC`. -/
theorem witness_GarbageThenFrameRunsTheFrame :
    let garbage : Bytes := [0x00, 0x49, 0x4D, 0x50, 0x52, 0x4F]
    let s := feeding (garbage ++ encode Cfg.ref (.rpcRequestInfo []))
    s.cfg.wf = true ∧ s.acc = [] ∧ (Instr.rpcRequestInfo []).inbound = true ∧
      (Instr.rpcRequestInfo []).wf s.cfg = true ∧
      s.env.schedule = feedsOf (garbage ++ encode s.cfg (.rpcRequestInfo [])) ++ [] ∧
      ∀ q < garbage.length, ¬ magicAt s.cfg (garbage ++ encode s.cfg (.rpcRequestInfo [])) q := by decide
set_option maxRecDepth 20000 in
/-- The full declared length, and the byte after it; a declared length of 200 and of 0. -/
theorem witness_FalseLockSwallowsTheDeclaredLength :
    (let s := feeding (Cfg.ref.magic ++ [0x01, 0x03, 0xC8] ++ List.replicate 200 0xAA)
     s.cfg.wf = true ∧ s.acc = [] ∧ (0xC8 : Byte).toNat ≤ 200 ∧
       (List.replicate 200 (0xAA : Byte)).length ≤ (0xC8 : Byte).toNat ∧
       s.env.schedule = feedsOf (s.cfg.magic ++ [0x01, 0x03, 0xC8] ++ List.replicate 200 0xAA) ++ []) ∧
    (let s := feeding (Cfg.ref.magic ++ [0x01, 0x03, 0x00] ++ [0xAA])
     s.cfg.wf = true ∧ s.acc = [] ∧ (0x00 : Byte).toNat ≤ 200 ∧ [(0xAA : Byte)].length = (0x00 : Byte).toNat + 1 ∧
       s.env.schedule = feedsOf (s.cfg.magic ++ [0x01, 0x03, 0x00] ++ [0xAA]) ++ [] ∧
       (seen (runSteps 10 s)).map Seen.acc = some []) := by decide
/-- A boot with a stored SSID, then a pass of two bytes and a tick, and a pass with neither. -/
theorem witness_BootScheduleBeginsOnceAndFirst :
    let passes : List (Bytes × Bool) := [([0x49, 0x4D], true), ([], false)]
    let s := stateIn { Env.initial with
      schedule := bootSchedule passes
      statusAnswers := [downStatus]
      connectAnswers := [.failure]
      credAnswers := [some home, none] }
    s.cfg.wf = true ∧ AllReturn s ∧ s.env.schedule = bootSchedule passes ∧
      passEvents passes = [.feed 0x49, .feed 0x4D, .tick] := by decide
/-- The last two calls that return, in a block with a frame on `TX` and a partial frame buffered. -/
theorem witness_StepKeepsInvariant :
    let s := State.record (.tx aReady) (busy .tick { Env.initial with statusAnswers := [downStatus], callsLeft := .left 2 })
    Inv s ∧ CallsReturned s ∧ (seen (step s)).map Seen.frames = some [aReady, aReady] := by
  refine ⟨⟨by decide, by decide, by decide, by decide, fun bytes h => ⟨.txCurrentState .ready, rfl, rfl, ?_⟩⟩,
    by decide, by decide⟩
  have h' : bytes ∈ [aReady] := h
  rw [List.mem_singleton.1 h']
  decide
/-- Exactly as many answers as one operation draws; the further ones differ from them. -/
theorem witness_UndrawnAnswersChangeNothing :
    let s := busy .tick { Env.initial with
      statusAnswers := [downStatus]
      scanAnswers := [[]]
      connectAnswers := [.failure]
      credAnswers := [some home, none] }
    EnoughScripted s ∧ (seen (step s)).map Seen.frames = some [aReady] ∧
      (seen (step (s.withMoreAnswers [upStatus ip2] [] [.success] [none]))).map Seen.frames = some [aReady] := by decide
/-- Each of the three, where every call returns and where the next one does not. -/
theorem witness_OperationsStopOnlyWhenACallHangs :
    ∀ op ∈ [EnvOp.begin, .tick, .statusText],
      Next op [] (busy op Env.initial) ∧ AllReturn (busy op Env.initial) ∧
        Next op [] (busy op { Env.initial with callsLeft := .left 0 }) ∧
        (busy op { Env.initial with callsLeft := .left 0 }).env.callsLeft = .left 0 := by decide

end Sys2Proof.Tests
end

section
/-! The step where it performs no operation: the refusal of an ill-formed configuration, and the idle step. -/

namespace Sys2Proof.Machine

/-- R14, U6: the step's guard on the configuration. -/
theorem step_of_not_wf {s : State} (h : s.cfg.wf = false) : step s = .refused .illFormedConfig := by
  simp [step, guardedNext, h]

/-- R260, R284: past the guard, an empty schedule is the control loop's idle case. -/
theorem step_of_schedule_nil {s : State} (hwf : s.cfg.wf = true) (hidle : s.env.schedule = []) : step s = .next s := by
  simp [step, guardedNext, hwf, runNext, hidle]

/-- Settles O4: the two cases in which the step performs no operation. -/
theorem stepRefusesIllFormedAndIdles : Obligations.StepRefusesIllFormedAndIdles :=
  ⟨fun _ => step_of_not_wf, fun _ => step_of_schedule_nil⟩

end Sys2Proof.Machine
end

section
/-! The frame of every operation: what the instructions and the operations of the environment leave as it was, and that
they only extend the trace (R21, R24, R27, R57). -/

namespace Sys2Proof.Machine

/-- `t` has the accumulator, the configuration and the schedule of `s`, and a trace that extends the trace of `s`. It is
`Extends` less what holds of the inbound rows alone. -/
structure Framed (s t : State) : Prop where
  acc : t.acc = s.acc
  cfg : t.cfg = s.cfg
  schedule : t.env.schedule = s.env.schedule
  trace : ∃ evs, t.trace = s.trace ++ evs

theorem Framed.trans {s t u : State} (h : Framed s t) (k : Framed t u) : Framed s u := by
  obtain ⟨evs, he⟩ := h.trace
  obtain ⟨evs', he'⟩ := k.trace
  exact ⟨k.acc.trans h.acc, k.cfg.trans h.cfg, k.schedule.trans h.schedule, evs ++ evs',
    by rw [he', he, List.append_assoc]⟩

theorem Extends.framed {s t : State} (h : Extends s t) : Framed s t :=
  ⟨h.acc, h.cfg, h.schedule, h.trace.imp fun _ => And.left⟩

theorem framed_record (e : Event) (s : State) : Framed s (s.record e) := ⟨rfl, rfl, rfl, [e], rfl⟩

theorem framed_emit (type : Byte) (p : Bytes) (s : State) : Framed s (emit type p s) := by
  rcases Nat.lt_or_ge payloadMax p.length with h | h
  · rw [emit_of_gt _ _ _ h]
    exact framed_record _ s
  · rw [emit_of_le _ _ _ h]
    exact ⟨rfl, rfl, rfl, _, transmit_trace s _⟩

theorem framed_setError (e : ErrState) (s : State) : Framed s (setError e s) := by
  unfold setError
  exact (extends_setErr e s).framed.trans (framed_emit _ _ _)

theorem framed_emitResult (l : List Bytes) (s : State) : Framed s (emitResult l s) := by
  obtain ⟨hacc, hcfg, -, -, hschedule⟩ := emitResult_keeps l s
  exact ⟨hacc, hcfg, hschedule, _, emitResult_trace l s⟩

/-- The rows that are not inbound are the three the block sends (R99). -/
theorem outbound_cases {i : Instr} (h : i.inbound = false) :
    (∃ d, i = .txCurrentState d) ∨ (∃ e, i = .txErrorState e) ∨ ∃ l, i = .txRpcResult l := by
  cases i <;> simp [Instr.inbound] at h ⊢

/-- The frame of the fourteen instructions. -/
theorem exec_framed {i : Instr} {s t : State} (h : exec i s = .next t) : Framed s t := by
  cases hi : i.inbound with
  | true => exact (exec_extends hi h).framed
  | false =>
    obtain ⟨d, rfl⟩ | ⟨e, rfl⟩ | ⟨l, rfl⟩ := outbound_cases hi
    · exact (complete_next h).1 ▸ framed_emit _ _ s
    · exact (complete_next h).1 ▸ framed_setError e s
    · exact (complete_next h).1 ▸ framed_emitResult l s

/-- The frame of the operations that neither feed nor reset (R24, last row). -/
theorem perform_framed {op : EnvOp} {s t : State} (hop : op = .begin ∨ op = .tick ∨ op = .statusText)
    (h : perform op s = .next t) : Framed s t := by
  rcases hop with rfl | rfl | rfl
  · exact (framed_record _ s).trans (begin_extends h).framed
  · exact (framed_record _ s).trans (tick_extends h).framed
  · exact (statusText_extends h).framed

/-- What the verdict of `feed` leaves, the accumulator apart: the configuration, and the trace but for what it
appends. -/
theorem feedVerdict_cfg_trace {v : Except Reject Frame} {s t : State} (h : feedVerdict v s = .next t) :
    t.cfg = s.cfg ∧ ∃ evs, t.trace = s.trace ++ evs := by
  rcases feedVerdict_next h with ⟨-, -, hcfg, -, evs, htrace, -⟩ | ⟨fr, -, hd⟩
  · exact ⟨hcfg, evs, htrace⟩
  · exact ⟨(exec_framed hd).cfg, (exec_framed hd).trace⟩

theorem feed_cfg {b : Byte} {s t : State} (h : feed b s = .next t) : t.cfg = s.cfg := (feedVerdict_cfg_trace h).1

theorem feed_trace {b : Byte} {s t : State} (h : feed b s = .next t) : ∃ evs, t.trace = s.trace ++ evs := by
  obtain ⟨evs, htrace⟩ := (feedVerdict_cfg_trace h).2
  exact ⟨.feed b :: evs, by simpa using htrace⟩

/-- No operation writes the configuration (R27). -/
theorem perform_cfg {op : EnvOp} {s t : State} (h : perform op s = .next t) : t.cfg = s.cfg := by
  cases op with
  | reset => injection h with h; exact h ▸ doReset_cfg s
  | begin => exact (perform_framed (.inl rfl) h).cfg
  | feed b => exact feed_cfg h
  | tick => exact (perform_framed (.inr (.inl rfl)) h).cfg
  | statusText => exact (perform_framed (.inr (.inr rfl)) h).cfg

/-- Only `reset` empties the histories (R30). -/
theorem perform_trace {op : EnvOp} {s t : State} (hop : op ≠ .reset) (h : perform op s = .next t) :
    ∃ evs, t.trace = s.trace ++ evs := by
  cases op with
  | reset => exact absurd rfl hop
  | begin => exact (perform_framed (.inl rfl) h).trace
  | feed b => exact feed_trace h
  | tick => exact (perform_framed (.inr (.inl rfl)) h).trace
  | statusText => exact (perform_framed (.inr (.inr rfl)) h).trace

/-- Settles O15: the frame of the instructions, field by field. -/
theorem instructionsKeepAccumulatorAndConfiguration : Obligations.InstructionsKeepAccumulatorAndConfiguration :=
  fun _ _ _ h => ⟨(exec_framed h).acc, (exec_framed h).cfg, (exec_framed h).schedule, (exec_framed h).trace⟩

/-- Settles O14: the step is the operation with itself taken from the schedule. -/
theorem otherOperationsKeepAccumulator : Obligations.OtherOperationsKeepAccumulator := by
  intro s t op rest hnext hop h
  rw [step_of_next hnext] at h
  have hframed := perform_framed hop h
  exact ⟨hframed.acc, congrArg List.length hframed.acc, hframed.schedule⟩

/-- Settles O13: an idle step changes nothing, and no operation writes the configuration. -/
theorem stepNeverWritesConfiguration : Obligations.StepNeverWritesConfiguration := by
  intro s t h
  obtain ⟨-, ⟨-, rfl⟩ | ⟨op, rest, -, hperform⟩⟩ := step_next h
  · rfl
  · have hcfg := perform_cfg hperform
    exact hcfg

/-- Settles O17: an idle step appends nothing, and every operation but `reset` appends. -/
theorem stepOnlyAppendsToTrace : Obligations.StepOnlyAppendsToTrace := by
  intro s t hreset h
  obtain ⟨-, ⟨-, rfl⟩ | ⟨op, rest, hschedule, hperform⟩⟩ := step_next h
  · exact ⟨[], (List.append_nil _).symm⟩
  · have hop : op ≠ .reset := by
      rintro rfl
      exact hreset (by rw [hschedule]; rfl)
    have htrace := perform_trace hop hperform
    exact htrace

end Sys2Proof.Machine
end

section
/-! The accumulator between operations (R22): the verdicts read backwards, and the invariant kept by `feed` and by the
step. -/

namespace Sys2Proof.Machine

/-- A buffer below the gate is short (R121). -/
theorem length_lt_of_checkFrame_gate {c : Cfg} {acc : Bytes} (h : checkFrame c acc = .error .gate) :
    acc.length < 9 := by
  unfold checkFrame at h
  split_ifs at h with hgate <;> cases h
  exact hgate

/-- A misaligned buffer has passed the gate (R122). -/
theorem misaligned_of_checkFrame_framingError {c : Cfg} {acc : Bytes} (h : checkFrame c acc = .error .framingError) :
    9 ≤ acc.length ∧ slice acc 0 6 ≠ c.magic := by
  unfold checkFrame at h
  split_ifs at h with hgate hmagic <;> cases h
  exact ⟨Nat.not_lt.1 hgate, hmagic⟩

/-- An incomplete frame stands behind an aligned, accepted header (R143). -/
theorem header_of_checkFrame_incomplete {c : Cfg} {acc : Bytes} (h : checkFrame c acc = .error .incomplete) :
    9 ≤ acc.length ∧ slice acc 0 6 = c.magic ∧ declaredLen acc ≤ 200 ∧ acc.length < 9 + declaredLen acc + 1 := by
  unfold checkFrame at h
  split_ifs at h with hgate hmagic hlen hsize <;> cases h
  exact ⟨Nat.not_lt.1 hgate, not_not.1 hmagic, Nat.not_lt.1 hlen, hsize⟩

/-- What the verdict of `feed` leaves in the accumulator: a wait keeps the buffer, a framing error drops its first byte,
and every other verdict clears it (R121, R122, R142 to R146). -/
theorem feedVerdict_acc {v : Except Reject Frame} {s t : State} (h : feedVerdict v s = .next t) :
    ((v = .error .gate ∨ v = .error .incomplete) ∧ t.acc = s.acc) ∨
      (v = .error .framingError ∧ t.acc = s.acc.drop 1) ∨ t.acc = [] := by
  cases v with
  | ok fr => exact .inr (.inr (exec_framed h).acc)
  | error r =>
    cases r <;> injection h with h <;> subst h
    case gate => exact .inl ⟨.inl rfl, rfl⟩
    case incomplete => exact .inl ⟨.inr rfl, rfl⟩
    case framingError => exact .inr (.inl ⟨rfl, rfl⟩)
    case lengthTooLarge => exact .inr (.inr rfl)
    case checksumMismatch => exact .inr (.inr rfl)

/-- `feed` keeps the invariant: what waits meets it by its verdict, and what is misaligned had eight bytes before the
append, so it has eight again. -/
theorem feed_accInv {b : Byte} {s t : State} (hinv : AccInv s.cfg s.acc) (h : feed b s = .next t) :
    AccInv s.cfg t.acc := by
  obtain ⟨hgate | hincomplete, hacc⟩ | ⟨hframing, hacc⟩ | hacc := feedVerdict_acc h <;> rw [hacc]
  · exact AccInv.append_wait (.inl (length_lt_of_checkFrame_gate hgate))
  · exact AccInv.append_wait (.inr (header_of_checkFrame_incomplete hincomplete))
  · obtain ⟨hlong, hmisaligned⟩ := misaligned_of_checkFrame_framingError hframing
    have hlength : s.acc.length = 8 := hinv.misaligned_length hlong hmisaligned
    exact .inl (by simp [hlength])
  · exact accInv_nil _

/-- Every operation keeps the invariant of the accumulator. -/
theorem perform_accInv {op : EnvOp} {s t : State} (hinv : AccInv s.cfg s.acc) (h : perform op s = .next t) :
    AccInv s.cfg t.acc := by
  cases op with
  | reset => injection h with h; exact h ▸ accInv_nil _
  | begin => rw [(perform_framed (.inl rfl) h).acc]; exact hinv
  | feed b => exact feed_accInv hinv h
  | tick => rw [(perform_framed (.inr (.inl rfl)) h).acc]; exact hinv
  | statusText => rw [(perform_framed (.inr (.inr rfl)) h).acc]; exact hinv

theorem step_accInv {s t : State} (hinv : AccInv s.cfg s.acc) (h : step s = .next t) : AccInv t.cfg t.acc := by
  obtain ⟨-, ⟨-, rfl⟩ | ⟨op, rest, -, hperform⟩⟩ := step_next h
  · exact hinv
  · rw [perform_cfg hperform]
    exact perform_accInv (s := { s with env := { s.env with schedule := rest } }) hinv hperform

/-- Settles O12: `reset` empties the accumulator, the step keeps the invariant, and the invariant bounds the length. -/
theorem stepKeepsAccumulatorInvariant : Obligations.StepKeepsAccumulatorInvariant := by
  refine ⟨accInv_nil _, fun s t hinv h => ?_⟩
  have hinv' := step_accInv hinv h
  exact ⟨hinv', hinv'.length_le, Nat.succ_le_succ hinv.length_le⟩

/-- Settles O2: the reset trace holds no frame, so the outbound stream is well-formed; the rest is the table of R33. -/
theorem resetStateMeetsInvariant : Obligations.ResetStateMeetsInvariant := by
  have htx : TxWellFormed State.reset := fun _ hmem => nomatch hmem
  exact ⟨⟨accInv_nil _, by decide, .inl rfl, by decide, htx⟩, by decide, rfl, rfl, rfl, rfl, rfl, rfl, rfl⟩

end Sys2Proof.Machine
end

section
/-! What the instructions and the step do not read: the accumulator (R21), and the answers they do not draw (R31). Last,
which instructions write `DEVSTATE` (R25, R233). -/

namespace Sys2Proof.Machine

/-- Settles O16: a dropped frame changes nothing, and every action of the other rows commutes with a change of the
accumulator. -/
theorem instructionsNeverReadAccumulator : Obligations.InstructionsNeverReadAccumulator := by
  intro i s a
  cases i with
  | rxCurrentState | rxErrorState | rxRpcResult | rpcEmpty | rpcForeignVersion | rxUnassignedType => rfl
  | rpcSendWiFi args => exact complete_setAcc a _ s (doSendWiFi_setAcc a args s)
  | rpcRequestState => exact complete_setAcc a _ s (doRequestState_setAcc a s)
  | rpcRequestInfo => exact complete_setAcc a _ s (emitResult_setAcc a _ s)
  | rpcRequestScan => exact complete_setAcc a _ s (emitScan_setAcc a _ s.askScan)
  | rpcUnknown => exact complete_setAcc a _ s (setError_setAcc a _ s)
  | txCurrentState d => exact complete_setAcc a _ s (emitCurrentState_setAcc a d s)
  | txErrorState e => exact complete_setAcc a _ s (setError_setAcc a e s)
  | txRpcResult l => exact complete_setAcc a _ s (emitResult_setAcc a l s)

section

variable (status : List NetStatus) (scan : List (List ScanEntry)) (connect : List ConnectResult)
  (cred : List (Option Bytes)) (s : State)

/-- Further answers change no instruction: none draws more than one status, one scan and one connect answer (R164, R166,
R168). -/
theorem exec_more (i : Instr) (h : EnoughScripted s) :
    exec i (s.withMoreAnswers status scan connect cred) =
      mapNext (State.withMoreAnswers status scan connect cred) (exec i s) := by
  obtain ⟨hstatus, hscan, hconnect, -⟩ := h
  have run (op : State → State) := complete_more status scan connect cred s op
  cases i with
  | rxCurrentState | rxErrorState | rxRpcResult | rpcEmpty | rpcForeignVersion | rxUnassignedType => rfl
  | rpcSendWiFi args => exact run _ (doSendWiFi_more status scan connect cred s args hconnect hstatus)
  | rpcRequestState => exact run _ (doRequestState_more status scan connect cred s hstatus)
  | rpcRequestInfo => exact run _ (emitResult_more status scan connect cred s _)
  | rpcRequestScan => exact run _ (doRequestScan_more status scan connect cred s hscan)
  | rpcUnknown => exact run _ (raise_more status scan connect cred s _)
  | txCurrentState d => exact run _ (emit_more status scan connect cred s _ _)
  | txErrorState e => exact run _ (setError_more status scan connect cred s e)
  | txRpcResult l => exact run _ (emitResult_more status scan connect cred s l)

/-- Further answers change no verdict of `feed`: only a dispatched frame draws any. -/
theorem feedVerdict_more (v : Except Reject Frame) (h : EnoughScripted s) :
    feedVerdict v (s.withMoreAnswers status scan connect cred) =
      mapNext (State.withMoreAnswers status scan connect cred) (feedVerdict v s) := by
  cases v with
  | ok fr => exact exec_more status scan connect cred (s.setAcc []) (mux s.cfg fr) h
  | error r => cases r <;> rfl

/-- Further answers change no operation: `begin` alone draws two of one kind, the credentials (R193). -/
theorem perform_more (op : EnvOp) (h : EnoughScripted s) :
    perform op (s.withMoreAnswers status scan connect cred) =
      mapNext (State.withMoreAnswers status scan connect cred) (perform op s) := by
  have ⟨hstatus, _, hconnect, hcred⟩ := h
  have run (op : State → State) := complete_more status scan connect cred s op
  cases op with
  | reset => rfl
  | begin => exact run _ (doBegin_more status scan connect cred s hcred hconnect)
  | feed b => exact feedVerdict_more status scan connect cred ((s.record (.feed b)).setAcc (s.acc ++ [b])) _ h
  | tick => exact run _ (doTick_more status scan connect cred s hstatus)
  | statusText => exact run _ (doStatusText_more status scan connect cred s hstatus)

/-- Further answers change no step: the guard and the schedule are the same, and so is the operation. -/
theorem step_more (h : EnoughScripted s) :
    step (s.withMoreAnswers status scan connect cred) =
      mapNext (State.withMoreAnswers status scan connect cred) (step s) := by
  cases hwf : s.cfg.wf with
  | false => rw [step_of_not_wf hwf, step_of_not_wf (by exact hwf)]; rfl
  | true =>
    cases hschedule : s.env.schedule with
    | nil => rw [step_of_schedule_nil hwf hschedule, step_of_schedule_nil (by exact hwf) (by exact hschedule)]; rfl
    | cons op rest =>
      rw [step_of_next ⟨hwf, hschedule⟩, step_of_next ⟨by exact hwf, by exact hschedule⟩]
      exact perform_more status scan connect cred { s with env := { s.env with schedule := rest } } op h

end

/-- Settles O58: the instructions and the step commute with further answers. -/
theorem undrawnAnswersChangeNothing : Obligations.UndrawnAnswersChangeNothing :=
  fun status scan connect cred s h =>
    ⟨fun i => exec_more status scan connect cred s i h, step_more status scan connect cred s h⟩

/-- Settles O21: an instruction keeps `DEVSTATE`, or is one of the two and leaves it settled. -/
theorem onlyStateCommandsWriteDevState : Obligations.OnlyStateCommandsWriteDevState :=
  fun _ _ _ h hchanged => (exec_regs h).1.resolve_left hchanged

end Sys2Proof.Machine
end

section
/-! A frame as stored bytes: its layout (R56, R81, R83), and the block's own frames read back by its decoder (R65). -/

namespace Sys2Proof.Machine

/-- The byte behind a frame body stands at offset 9 + `len` (R81). -/
theorem byteAt_frameBody_concat (c : Cfg) (v t : Byte) (p : Bytes) (x : Byte) (hm : c.magic.length = 6) :
    byteAt (frameBody c v t p ++ [x]) (9 + p.length) = x := by
  rw [← frameBody_length c v t p hm, byteAt_append_right _ _ _ (le_refl _), Nat.sub_self]
  rfl

/-- Settles O46: a frame is its body and one more byte, so the laws of the body read its offsets; that byte is the
checksum of what stands before it. -/
theorem frameLayout : Obligations.FrameLayout := by
  intro c v t p hwf hp
  have hm := Cfg.wf_magic hwf
  refine ⟨(frameBytes_length c v t p hm).trans (Nat.add_comm ..), body_magic c v t p _ hm,
    body_version c v t p _ hm, body_type c v t p _ hm, body_declaredLen c v t p _ hm hp, body_payload c v t p _ hm, ?_⟩
  rw [frameBytes, body_prefix c v t p _ hm, byteAt_frameBody_concat c v t p _ hm]

/-- What decodes is the mux's reading of an accepted frame (R146, R160). -/
theorem decode_ok {c : Cfg} {bytes : Bytes} {i : Instr} (h : decode c bytes = .ok i) :
    ∃ fr, checkFrame c bytes = .ok fr ∧ mux c fr = i := by
  unfold decode at h
  cases hframe : checkFrame c bytes with
  | error r => rw [hframe] at h; cases h
  | ok fr => rw [hframe] at h; cases h; exact ⟨fr, rfl, rfl⟩

/-- A frame that is accepted at all is accepted with the type it was built with, whatever its payload's length. -/
theorem type_of_checkFrame_frameBytes {c : Cfg} {v t : Byte} {p : Bytes} {fr : Frame} (hm : c.magic.length = 6)
    (h : checkFrame c (frameBytes c v t p) = .ok fr) : fr.type = t := by
  obtain ⟨-, -, -, -, -, rfl⟩ := checkFrame_ok h
  exact body_type c v t p _ hm

/-- The rows the block sends are of other types than RPC (R9, R99). -/
theorem type_ne_rpc_of_outbound {c : Cfg} {i : Instr} (hwf : c.wf = true) (hi : i.inbound = false) :
    (i.frame c).type ≠ c.typeRpc := by
  have htypes := Cfg.wf_types hwf
  simp only [Cfg.typeCodes, List.nodup_cons, List.mem_cons, List.not_mem_nil, or_false, not_or] at htypes
  obtain ⟨⟨-, hstate, -⟩, ⟨herror, -⟩, hresult, -⟩ := htypes
  obtain ⟨d, rfl⟩ | ⟨e, rfl⟩ | ⟨l, rfl⟩ := outbound_cases hi
  · exact hstate
  · exact herror
  · exact Ne.symm hresult

/-- A frame of another type than RPC is ignored, whichever of the four non-RPC rows it matches (R160). -/
theorem exec_mux_of_type_ne_rpc {c : Cfg} {fr : Frame} (h : fr.type ≠ c.typeRpc) (s : State) :
    exec (mux c fr) s = .next s := by
  rw [mux, if_pos h, muxNonRpc]
  split_ifs <;> rfl

/-- Settles O45: the decoder reads the type the block sent, and no row the block sends has the type RPC. -/
theorem loopedBackFramesAreIgnored : Obligations.LoopedBackFramesAreIgnored := by
  rintro c _ _ hwf ⟨sent, hsent, -, rfl⟩ hdecode s
  obtain ⟨fr, hframe, rfl⟩ := decode_ok hdecode
  have htype : fr.type = (sent.frame c).type := type_of_checkFrame_frameBytes (Cfg.wf_magic hwf) hframe
  exact exec_mux_of_type_ne_rpc (htype ▸ type_ne_rpc_of_outbound hwf hsent) s

end Sys2Proof.Machine
end

section
/-! What stands on `TX` (R2, R99, R223): the bound `Extends` read as the invariant of the outbound stream, kept by every
operation and so by the step. -/

namespace Sys2Proof.Machine

/-- The stream stays well-formed when what is appended sends frames of the outbound rows only. -/
theorem TxWellFormed.append {s t : State} {evs : List Event} (hs : TxWellFormed s) (hcfg : t.cfg = s.cfg)
    (htrace : t.trace = s.trace ++ evs) (hevs : ∀ bytes, Event.tx bytes ∈ evs → IsOutboundFrame s.cfg bytes) :
    TxWellFormed t := by
  intro bytes hbytes
  rw [mem_txFrames, htrace, List.mem_append] at hbytes
  rw [hcfg]
  exact hbytes.elim (fun hold => hs bytes (mem_txFrames.2 hold)) (hevs bytes)

theorem Extends.txWellFormed {s t : State} (h : Extends s t) (hs : TxWellFormed s) : TxWellFormed t := by
  obtain ⟨evs, htrace, hevs⟩ := h.trace
  exact hs.append h.cfg htrace hevs

/-- An event other than a `writeBytes` call sends nothing (R53). -/
theorem TxWellFormed.record {s : State} (hs : TxWellFormed s) {e : Event} (he : ∀ bytes, e ≠ .tx bytes) :
    TxWellFormed (s.record e) :=
  hs.append rfl rfl fun bytes hbytes => absurd (List.mem_singleton.1 hbytes).symm (he bytes)

/-- After a verdict nothing is sent, but by the inbound instruction of a dispatched frame. -/
theorem feedVerdict_txWellFormed {v : Except Reject Frame} {s t : State} (hs : TxWellFormed s)
    (h : feedVerdict v s = .next t) : TxWellFormed t := by
  rcases feedVerdict_next h with ⟨-, -, hcfg, -, evs, htrace, hsilent⟩ | ⟨fr, -, hdispatch⟩
  · exact hs.append hcfg htrace fun bytes hbytes => absurd hbytes (hsilent bytes)
  · have hcleared : TxWellFormed (s.setAcc []) := hs
    exact (exec_extends (mux_inbound _ fr) hdispatch).txWellFormed hcleared

/-- Every operation keeps the outbound stream well-formed; `reset` empties it (R30). -/
theorem perform_txWellFormed {op : EnvOp} {s t : State} (hs : TxWellFormed s) (h : perform op s = .next t) :
    TxWellFormed t := by
  cases op with
  | reset =>
    injection h with h
    subst h
    exact fun _ hmem => nomatch hmem
  | begin => exact (begin_extends h).txWellFormed (hs.record (by simp))
  | feed b =>
    have hfed : TxWellFormed (s.record (.feed b)) := hs.record (by simp)
    exact feedVerdict_txWellFormed (s := (s.record (.feed b)).setAcc (s.acc ++ [b])) hfed h
  | tick => exact (tick_extends h).txWellFormed (hs.record (by simp))
  | statusText => exact (statusText_extends h).txWellFormed hs

/-- Settles O20: an idle step sends nothing, and every operation keeps the stream well-formed. -/
theorem stepKeepsOutboundStreamWellFormed : Obligations.StepKeepsOutboundStreamWellFormed := by
  intro s t hs h
  obtain ⟨-, ⟨-, rfl⟩ | ⟨op, rest, -, hperform⟩⟩ := step_next h
  · exact hs
  · exact perform_txWellFormed (s := { s with env := { s.env with schedule := rest } }) hs hperform

end Sys2Proof.Machine
end

section
/-! The codec (R81, R99): the mux case by case, the two round trips between bytes and instructions, and the order of the
rows of the opcode table. -/

namespace Sys2Proof

/-- R160: a frame of another type than RPC is of a non-RPC row. -/
theorem mux_of_type_ne_rpc {c : Cfg} {fr : Frame} (h : fr.type ≠ c.typeRpc) : mux c fr = muxNonRpc c fr := if_pos h

/-- R161: an RPC frame of another version is of the row of foreign versions. -/
theorem mux_rpc_of_version_ne {c : Cfg} {v : Byte} (h : v ≠ c.protoVersion) (p : Bytes) :
    mux c ⟨v, c.typeRpc, p⟩ = .rpcForeignVersion v p := by
  simp [mux, h]

/-- R162: an RPC frame of the protocol's version without payload is of the empty row. -/
theorem mux_rpc_nil (c : Cfg) : mux c ⟨c.protoVersion, c.typeRpc, []⟩ = .rpcEmpty := by
  simp [mux]

/-- R163: any other RPC frame of the protocol's version goes to the command mux. -/
theorem mux_rpc_cons (c : Cfg) (cmd : Byte) (args : Bytes) :
    mux c ⟨c.protoVersion, c.typeRpc, cmd :: args⟩ = muxCommand c cmd args := by
  simp [mux]

/-- The type codes of a well-formed configuration as inequations, each in the direction in which the mux compares
(R9, R14). -/
theorem Cfg.wf_type_ne {c : Cfg} (h : c.wf = true) :
    (c.typeCurrentState ≠ c.typeRpc ∧ c.typeErrorState ≠ c.typeRpc ∧ c.typeRpcResult ≠ c.typeRpc) ∧
      c.typeErrorState ≠ c.typeCurrentState ∧ c.typeRpcResult ≠ c.typeCurrentState ∧
      c.typeRpcResult ≠ c.typeErrorState := by
  have htypes := Cfg.wf_types h
  simp only [Cfg.typeCodes, List.nodup_cons, List.mem_cons, List.not_mem_nil, or_false, not_or] at htypes
  obtain ⟨⟨hce, hcr, hcx⟩, ⟨her, hex⟩, hrx, -⟩ := htypes
  exact ⟨⟨hcr, her, Ne.symm hrx⟩, Ne.symm hce, Ne.symm hcx, Ne.symm hex⟩

/-- The non-RPC part of the mux gives each of its three assigned rows back from the row's type (R9, R99). -/
theorem muxNonRpc_codes {c : Cfg} (h : c.wf = true) (v : Byte) (p : Bytes) :
    muxNonRpc c ⟨v, c.typeCurrentState, p⟩ = .rxCurrentState v p ∧
      muxNonRpc c ⟨v, c.typeErrorState, p⟩ = .rxErrorState v p ∧
      muxNonRpc c ⟨v, c.typeRpcResult, p⟩ = .rxRpcResult v p := by
  obtain ⟨-, herror, hresult, hresult'⟩ := Cfg.wf_type_ne h
  exact ⟨by simp [muxNonRpc], by simp [muxNonRpc, herror], by simp [muxNonRpc, hresult, hresult']⟩

/-- A type that is no code of the configuration is of the row of unassigned types (R160). -/
theorem mux_of_type_unassigned {c : Cfg} {t : Byte} (h : t ∉ c.typeCodes) (v : Byte) (p : Bytes) :
    mux c ⟨v, t, p⟩ = .rxUnassignedType v t p := by
  simp only [Cfg.typeCodes, List.mem_cons, List.not_mem_nil, or_false, not_or] at h
  obtain ⟨hstate, herror, hrpc, hresult⟩ := h
  simp [mux, muxNonRpc, hstate, herror, hrpc, hresult]

/-- The mux gives a well-formed inbound instruction back from its frame (R99). -/
theorem mux_frame_of_wf {c : Cfg} {i : Instr} (hc : c.wf = true) (hi : i.inbound = true) (hw : i.wf c = true) :
    mux c (i.frame c) = i := by
  obtain ⟨⟨hstate, herror, hresult⟩, -⟩ := Cfg.wf_type_ne hc
  have nonRpc := muxNonRpc_codes hc
  have command := muxCommand_ids hc
  cases i with
  | rxCurrentState v p => exact (mux_of_type_ne_rpc hstate).trans (nonRpc v p).1
  | rxErrorState v p => exact (mux_of_type_ne_rpc herror).trans (nonRpc v p).2.1
  | rxRpcResult v p => exact (mux_of_type_ne_rpc hresult).trans (nonRpc v p).2.2
  | rpcEmpty => exact mux_rpc_nil c
  | rpcRequestState args => exact (mux_rpc_cons c _ args).trans (command args).1
  | rpcRequestInfo args => exact (mux_rpc_cons c _ args).trans (command args).2.1
  | rpcRequestScan args => exact (mux_rpc_cons c _ args).trans (command args).2.2.1
  | rpcSendWiFi args => exact (mux_rpc_cons c _ args).trans (command args).2.2.2
  | rpcUnknown cmd args =>
    obtain ⟨hcmd, -⟩ := (Bool.and_eq_true _ _).mp hw
    exact (mux_rpc_cons c cmd args).trans (muxCommand_unknown cmd args (of_decide_eq_true hcmd))
  | rpcForeignVersion v p =>
    obtain ⟨hversion, -⟩ := (Bool.and_eq_true _ _).mp hw
    exact mux_rpc_of_version_ne (of_decide_eq_true hversion) p
  | rxUnassignedType v t p =>
    obtain ⟨htype, -⟩ := (Bool.and_eq_true _ _).mp hw
    exact mux_of_type_unassigned (of_decide_eq_true htype) v p
  | txCurrentState | txErrorState | txRpcResult => cases hi

/-- The rows of RPC frames are passed over by a frame of another type; of the others, the three typed rows and the last,
open one are tried in the mux's order. -/
theorem firstRow_of_type_ne_rpc {c : Cfg} {fr : Frame} (h : fr.type ≠ c.typeRpc) :
    firstRow c fr = some (muxNonRpc c fr).mnemonic := by
  obtain ⟨v, t, p⟩ := fr
  simp only [muxNonRpc]
  split_ifs with hstate herror hresult
  · simp [firstRow, inboundRows, RowPattern.covers, Instr.mnemonic, hstate]
  · subst t
    simp [firstRow, inboundRows, RowPattern.covers, Instr.mnemonic, hstate]
  · subst t
    simp [firstRow, inboundRows, RowPattern.covers, Instr.mnemonic, hstate, herror]
  · simp [firstRow, inboundRows, RowPattern.covers, Instr.mnemonic, hstate, herror, hresult, h]

/-- An RPC frame passes over the three typed rows: its search begins at `RPC.Empty` (R9, R99). -/
theorem firstRow_rpc {c : Cfg} (hc : c.wf = true) (v : Byte) (p : Bytes) :
    firstRow c ⟨v, c.typeRpc, p⟩ =
      (((inboundRows c).drop 3).find? (fun r => r.covers ⟨v, c.typeRpc, p⟩)).map RowPattern.mnemonic := by
  obtain ⟨⟨hstate, herror, hresult⟩, -⟩ := Cfg.wf_type_ne hc
  simp [firstRow, inboundRows, RowPattern.covers, hstate.symm, herror.symm, hresult.symm]

/-- Of the rows of RPC frames, all but the last ask for the protocol's version (R161). -/
theorem firstRow_rpc_foreign {c : Cfg} (hc : c.wf = true) {v : Byte} (h : v ≠ c.protoVersion) (p : Bytes) :
    firstRow c ⟨v, c.typeRpc, p⟩ = some "RPC.ForeignVersion" := by
  rw [firstRow_rpc hc]
  simp [inboundRows, RowPattern.covers, h]

theorem firstRow_rpc_nil {c : Cfg} (hc : c.wf = true) :
    firstRow c ⟨c.protoVersion, c.typeRpc, []⟩ = some "RPC.Empty" := by
  rw [firstRow_rpc hc]
  simp [inboundRows, RowPattern.covers]

/-- The table tries `SendWiFi` first and the mux tries it last: the command ids are distinct, so the order does not
matter (R10). -/
theorem firstRow_rpc_cons {c : Cfg} (hc : c.wf = true) (cmd : Byte) (args : Bytes) :
    firstRow c ⟨c.protoVersion, c.typeRpc, cmd :: args⟩ = some (muxCommand c cmd args).mnemonic := by
  have hids := Cfg.wf_cmds hc
  simp only [Cfg.cmdIds, List.nodup_cons, List.mem_cons, List.not_mem_nil, or_false, not_or] at hids
  obtain ⟨⟨hwifiState, hwifiInfo, hwifiScan⟩, -⟩ := hids
  rw [firstRow_rpc hc, muxCommand]
  split_ifs with hstate hinfo hscan hwifi
  · subst cmd
    simp [inboundRows, RowPattern.covers, Instr.mnemonic, Ne.symm hwifiState]
  · subst cmd
    simp [inboundRows, RowPattern.covers, Instr.mnemonic, Ne.symm hwifiInfo, hstate]
  · subst cmd
    simp [inboundRows, RowPattern.covers, Instr.mnemonic, Ne.symm hwifiScan, hstate, hinfo]
  · subst cmd
    simp [inboundRows, RowPattern.covers, Instr.mnemonic]
  · simp [inboundRows, RowPattern.covers, Instr.mnemonic, hstate, hinfo, hscan, hwifi]

end Sys2Proof

namespace Sys2Proof.Machine

/-- Settles O42: the frame is short enough to be accepted, and the mux gives the instruction back from it. -/
theorem decodeOfEncodeIsIdentity : Obligations.DecodeOfEncodeIsIdentity := by
  intro c i hc hi hw
  have haccepted : checkFrame c (encode c i) = .ok (i.frame c) :=
    checkFrame_frameBytes c _ _ _ (Cfg.wf_magic hc) (Instr.wf_payload_le hi hw)
  rw [decode, haccepted]
  exact congrArg Except.ok (mux_frame_of_wf hc hi hw)

/-- Settles O43: the bytes are those of the accepted frame, and the mux drops no bit of it. -/
theorem encodeOfDecodeIsIdentity : Obligations.EncodeOfDecodeIsIdentity := by
  intro c bytes i hc h hlength
  obtain ⟨fr, hframe, rfl⟩ := decode_ok h
  obtain ⟨hbytes, hpayload⟩ := accepted_bytes hframe hlength
  obtain ⟨-, -, hceiling, -⟩ := checkFrame_ok hframe
  exact ⟨by rw [encode, mux_frame]; exact hbytes.symm, mux_wf c fr (hpayload.trans_le hceiling)⟩

/-- Settles O44: the checks of the mux, each against the rows left to try. -/
theorem muxIsFirstMatchingRow : Obligations.MuxIsFirstMatchingRow := by
  rintro c ⟨v, t, p⟩ hc
  by_cases htype : t = c.typeRpc
  · subst t
    by_cases hversion : v = c.protoVersion
    · subst v
      cases p with
      | nil => rw [firstRow_rpc_nil hc, mux_rpc_nil]; rfl
      | cons cmd args => rw [firstRow_rpc_cons hc, mux_rpc_cons]
    · rw [firstRow_rpc_foreign hc hversion, mux_rpc_of_version_ne hversion]; rfl
  · have hne : (⟨v, t, p⟩ : Frame).type ≠ c.typeRpc := htype
    rw [firstRow_of_type_ne_rpc hne, mux_of_type_ne_rpc hne]

/-- Settles O47: each frame is short, so the decoder is run on it. -/
theorem writtenOutWordsDecode : Obligations.WrittenOutWordsDecode :=
  ⟨by decide, by decide, by decide, by decide⟩

end Sys2Proof.Machine
end

section
/-! Length-prefixed strings read back (R87 to R89, R167). -/

namespace Sys2Proof

/-- The length byte of a string that is not cut is its length (R87). -/
theorem toNat_lengthByte {s : Bytes} (h : s.length ≤ strMax) : (BitVec.ofNat 8 s.length).toNat = s.length := by
  have h' : s.length ≤ 255 := h
  rw [BitVec.toNat_ofNat]
  omega

/-- Of strings that are not cut, `lp` tells where each ends, whatever stands behind it (R87, R88). -/
theorem lenPrefixed_append_inj {s t : Bytes} (hs : s.length ≤ strMax) (ht : t.length ≤ strMax) {x y : Bytes}
    (h : lenPrefixed s ++ x = lenPrefixed t ++ y) : s = t ∧ x = y := by
  rw [lenPrefixed_of_le s hs, lenPrefixed_of_le t ht, List.cons_append, List.cons_append, List.cons.injEq] at h
  obtain ⟨hbyte, hrest⟩ := h
  have hlength : s.length = t.length := by rw [← toNat_lengthByte hs, hbyte, toNat_lengthByte ht]
  exact List.append_inj hrest hlength

/-- A length-prefixed string is not empty, so no list but the empty one has the empty encoding. -/
theorem lenPrefixed_append_ne_nil (s x : Bytes) : lenPrefixed s ++ x ≠ [] := List.cons_ne_nil _ _

theorem lenPrefixed_length_of_le {s : Bytes} (h : s.length ≤ strMax) : (lenPrefixed s).length = 1 + s.length := by
  rw [lenPrefixed_length, Nat.min_eq_left h]

/-- A length-prefixed string behind `pre`, read at its offset `n`: the length byte, then the bytes (R89). -/
theorem lenPrefixed_read {s : Bytes} (hs : s.length ≤ strMax) {pre : Bytes} {n : Nat} (hn : pre.length = n)
    (rest : Bytes) :
    (byteAt (pre ++ lenPrefixed s ++ rest) n).toNat = s.length ∧
      slice (pre ++ lenPrefixed s ++ rest) (n + 1) (n + 1 + s.length) = s := by
  subst n
  have hbuffer : pre ++ lenPrefixed s ++ rest = pre ++ [BitVec.ofNat 8 s.length] ++ (s ++ rest) := by
    simp [lenPrefixed_of_le s hs]
  have hnext : pre.length + 1 = (pre ++ [BitVec.ofNat 8 s.length]).length := by simp
  rw [hbuffer]
  constructor
  · rw [List.append_assoc, byteAt_append_right _ _ _ (le_refl _), Nat.sub_self]
    exact toNat_lengthByte hs
  · rw [hnext, slice_append_right, List.take_left]

end Sys2Proof

namespace Sys2Proof.Machine

/-- Settles O31: each of the two strings is read behind what stands before it, and the buffer has room for both. -/
theorem wifiArgumentsReadBack : Obligations.WifiArgumentsReadBack := by
  intro ssid password extra hssid hpassword
  have hssidLength := lenPrefixed_length_of_le hssid
  obtain ⟨hssidByte, hssidRead⟩ :=
    lenPrefixed_read hssid (pre := []) (n := 0) rfl (lenPrefixed password ++ extra)
  obtain ⟨hpasswordByte, hpasswordRead⟩ := lenPrefixed_read hpassword hssidLength extra
  have hroom : (lenPrefixed ssid ++ lenPrefixed password ++ extra).length =
      1 + ssid.length + (1 + password.length) + extra.length := by
    rw [List.length_append, List.length_append, hssidLength, lenPrefixed_length_of_le hpassword]
  rw [List.nil_append, ← List.append_assoc] at hssidByte hssidRead
  have hoffset : 2 + ssid.length = 1 + ssid.length + 1 := by omega
  rw [Nat.zero_add] at hssidRead
  simp only [parseWifi, hssidByte, hpasswordByte]
  rw [if_neg (by omega), if_neg (by omega), if_neg (by omega), hssidRead, hoffset, hpasswordRead]

/-- Settles O48: the length byte tells where the first string of each list ends, and the rest is by induction. -/
theorem stringListsAreReadable : Obligations.StringListsAreReadable := by
  intro l
  induction l with
  | nil =>
    intro l' _ _ h
    cases l' with
    | nil => rfl
    | cons y l' => exact absurd h.symm (lenPrefixed_append_ne_nil y (sl l'))
  | cons x l ih =>
    intro l' hl hl' h
    cases l' with
    | nil => exact absurd h (lenPrefixed_append_ne_nil x (sl l))
    | cons y l' =>
      obtain ⟨hx, hl⟩ := List.forall_mem_cons.1 hl
      obtain ⟨hy, hl'⟩ := List.forall_mem_cons.1 hl'
      obtain ⟨hhead, htail⟩ := lenPrefixed_append_inj hx hy h
      rw [hhead, ih l' hl hl' htail]

end Sys2Proof.Machine
end

section
/-! The accumulator on a stream of bytes (R120 to R124): below the gate a byte is only stored, an unaligned stream
leaves its last eight bytes, and behind garbage a frame is read as if it were fed alone. -/

namespace Sys2Proof

/-- The last eight bytes of a stream, all of a shorter one: what R124 says the accumulator holds while no aligned header
is complete. -/
def lastEight (stream : Bytes) : Bytes := stream.drop (stream.length - 8)

theorem lastEight_of_length_le {stream : Bytes} (h : stream.length ≤ 8) : lastEight stream = stream := by
  rw [lastEight, Nat.sub_eq_zero_of_le h, List.drop_zero]

theorem lastEight_append_of_length_eq (stream : Bytes) {bytes : Bytes} (h : bytes.length = 8) :
    lastEight (stream ++ bytes) = bytes := by
  rw [lastEight, List.length_append, h, Nat.add_sub_cancel, List.drop_left]

/-- The buffer on which the verdict of the next byte falls. -/
theorem lastEight_concat (stream : Bytes) (b : Byte) :
    lastEight stream ++ [b] = (stream ++ [b]).drop (stream.length - 8) :=
  (List.drop_append_of_le_length (Nat.sub_le ..)).symm

theorem lastEight_concat_of_short {stream : Bytes} (h : stream.length < 8) (b : Byte) :
    lastEight stream ++ [b] = lastEight (stream ++ [b]) := by
  rw [lastEight_of_length_le h.le, lastEight_of_length_le (by simpa using h)]

theorem lastEight_concat_drop_one {stream : Bytes} (h : 8 ≤ stream.length) (b : Byte) :
    (lastEight stream ++ [b]).drop 1 = lastEight (stream ++ [b]) := by
  rw [lastEight_concat, List.drop_drop, lastEight, List.length_append, List.length_singleton, Nat.sub_add_comm h]

theorem encode_length {c : Cfg} (h : c.wf = true) (i : Instr) :
    (encode c i).length = (i.frame c).payload.length + 10 :=
  (frameBytes_length _ _ _ _ (Cfg.wf_magic h)).trans (Nat.add_comm ..)

end Sys2Proof

namespace Sys2Proof.Machine

/-- Whether `MAGIC` stands at a position is settled once its six bytes are there, whatever follows them. -/
theorem magicAt_append_left {c : Cfg} {stream : Bytes} {q : Nat} (h : q + 6 ≤ stream.length) (more : Bytes) :
    magicAt c (stream ++ more) q ↔ magicAt c stream q :=
  Eq.congr_left (slice_append_left _ _ _ _ h)

/-- R122: the step on a misaligned buffer drops the first byte. -/
theorem step_of_misaligned {b : Byte} {rest : List EnvOp} {s : State} (hnext : Next (.feed b) rest s)
    (hlong : 9 ≤ (s.acc ++ [b]).length) (hmagic : slice (s.acc ++ [b]) 0 6 ≠ s.cfg.magic) :
    step s = .next { appended b rest s with acc := (s.acc ++ [b]).drop 1 } := by
  rw [step_of_feed hnext, checkFrame_framingError hlong hmagic]
  rfl

/-- Feeding in two parts records the bytes of both; only the later accumulator and schedule stand. -/
theorem fedWith_fedWith (bytes bytes' acc acc' : Bytes) (rest rest' : List EnvOp) (s : State) :
    fedWith bytes' acc' rest' (fedWith bytes acc rest s) = fedWith (bytes ++ bytes') acc' rest' s := by
  simp [fedWith]

theorem fedWith_of_acc_eq {s : State} {acc : Bytes} (hacc : s.acc = acc) (bytes : Bytes) (rest : List EnvOp) :
    fedWith bytes acc rest s =
      { s with trace := s.trace ++ bytes.map Event.feed, env := { s.env with schedule := rest } } := by
  rw [← hacc]
  rfl

/-- One more byte of an unaligned stream: below the gate it is stored, and from there on each byte pushes out the
oldest of the last eight (R121, R122). -/
theorem step_unaligned {stream : Bytes} {b : Byte} {rest : List EnvOp} {s : State} (hnext : Next (.feed b) rest s)
    (hacc : s.acc = lastEight stream)
    (hmagic : 8 ≤ stream.length → ¬ magicAt s.cfg (stream ++ [b]) (stream.length - 8)) :
    step s = .next (fedWith [b] (lastEight (stream ++ [b])) rest s) := by
  rcases Nat.lt_or_ge stream.length 8 with hshort | hlong
  · have hbuffer : s.acc ++ [b] = lastEight (stream ++ [b]) := by rw [hacc, lastEight_concat_of_short hshort]
    rw [← hbuffer]
    exact step_waits hnext (.inl (by rw [hacc, lastEight_of_length_le hshort.le]; simpa using Nat.succ_lt_succ hshort))
  · have hbuffer : (s.acc ++ [b]).drop 1 = lastEight (stream ++ [b]) := by rw [hacc, lastEight_concat_drop_one hlong]
    rw [← hbuffer]
    refine step_of_misaligned hnext ?_ ?_
    · rw [hacc, lastEight_concat, List.length_drop, List.length_append, List.length_singleton]
      omega
    · rw [hacc, lastEight_concat, slice_drop_zero]
      exact hmagic hlong

/-- R124, first part: while no aligned header is complete, the accumulator holds the last eight bytes of the stream. -/
theorem runSteps_unaligned {stream : Bytes} {s : State} {rest : List EnvOp} (hwf : s.cfg.wf = true)
    (hacc : s.acc = []) (hschedule : s.env.schedule = feedsOf stream ++ rest)
    (hmagic : ∀ q, q + 9 ≤ stream.length → ¬ magicAt s.cfg stream q) :
    runSteps stream.length s = .next (fedWith stream (lastEight stream) rest s) := by
  induction stream using List.reverseRecOn generalizing rest with
  | nil =>
    have hfed := runSteps_waits [] s rest hwf hschedule (by simp)
    rw [hacc] at hfed
    exact hfed
  | append_singleton stream b ih =>
    rw [List.length_append, List.length_singleton] at hmagic ⊢
    rw [feedsOf_append, List.append_assoc] at hschedule
    have hfed := ih hschedule fun q hq h => hmagic q (by omega) ((magicAt_append_left (by omega) [b]).2 h)
    have hlast := step_unaligned (s := fedWith stream (lastEight stream) (feedsOf [b] ++ rest) s) (rest := rest)
      ⟨hwf, rfl⟩ rfl fun hlong => hmagic _ (by omega)
    rw [runSteps_add hfed, runSteps_one, hlast, fedWith_fedWith]

/-- R146, R148: the bytes of a well-formed inbound instruction, fed to an empty block, run it at the last byte. -/
theorem runSteps_encode {i : Instr} {s : State} {rest : List EnvOp} (hwf : s.cfg.wf = true) (hacc : s.acc = [])
    (hi : i.inbound = true) (hiwf : i.wf s.cfg = true) (hschedule : s.env.schedule = feedsOf (encode s.cfg i) ++ rest) :
    runSteps (encode s.cfg i).length s = exec i (fedWith (encode s.cfg i) [] rest s) := by
  have hpayload : (i.frame s.cfg).payload.length ≤ 200 := Instr.wf_payload_le hi hiwf
  have hrun := runSteps_body s _ _ _ _ rest hwf hacc hpayload hschedule
  rw [if_pos rfl] at hrun
  rw [encode_length hwf, hrun]
  exact congrArg (exec · _) (mux_frame_of_wf hwf hi hiwf)

/-- R124: with no occurrence of `MAGIC` that starts in the garbage, the garbage leaves no mark but its events. Once the
first eight bytes of the frame are in, the accumulator holds just them, as it does where the frame is fed alone. -/
theorem runSteps_garbage {garbage frame : Bytes} {s : State} {rest : List EnvOp} (hwf : s.cfg.wf = true)
    (hacc : s.acc = []) (hframe : 8 ≤ frame.length) (hschedule : s.env.schedule = feedsOf (garbage ++ frame) ++ rest)
    (hmagic : ∀ q, q < garbage.length → ¬ magicAt s.cfg (garbage ++ frame) q) :
    runSteps (garbage.length + frame.length) s =
      runSteps frame.length (fedWith garbage [] (feedsOf frame ++ rest) s) := by
  obtain ⟨head, tail, rfl, hhead⟩ : ∃ head tail, frame = head ++ tail ∧ head.length = 8 :=
    ⟨frame.take 8, frame.drop 8, (List.take_append_drop 8 frame).symm, List.length_take_of_le hframe⟩
  have hlength : (garbage ++ head).length = garbage.length + 8 := by rw [List.length_append, hhead]
  rw [← List.append_assoc] at hmagic
  have hboth := runSteps_unaligned (stream := garbage ++ head) (rest := feedsOf tail ++ rest) hwf hacc
    (by rw [hschedule]; simp [feedsOf_append])
    fun q hq h => hmagic q (by omega) ((magicAt_append_left (by omega) tail).2 h)
  have halone := runSteps_unaligned (stream := head) (rest := feedsOf tail ++ rest)
    (s := fedWith garbage [] (feedsOf (head ++ tail) ++ rest) s) hwf rfl
    (by simp [fedWith, feedsOf_append]) fun q hq => by omega
  rw [hlength, lastEight_append_of_length_eq garbage hhead] at hboth
  rw [hhead, lastEight_of_length_le hhead.le, fedWith_fedWith] at halone
  rw [List.length_append, hhead, ← Nat.add_assoc, runSteps_add hboth, runSteps_add halone]

/-- Settles O5: a buffer below the gate waits. -/
theorem feedBelowGateOnlyStores : Obligations.FeedBelowGateOnlyStores :=
  fun _ _ _ hnext hshort => step_waits hnext (.inl hshort)

/-- Settles O54, by induction on the stream, the last byte last. -/
theorem unalignedStreamKeepsLastEight : Obligations.UnalignedStreamKeepsLastEight :=
  fun _ _ _ hwf hacc hschedule hmagic => runSteps_unaligned hwf hacc hschedule hmagic

/-- Settles O55: behind the garbage the block runs as one that is fed the frame alone, and that one runs the instruction
at the last byte. -/
theorem garbageThenFrameRunsTheFrame : Obligations.GarbageThenFrameRunsTheFrame := by
  intro garbage i s rest hwf hacc hi hiwf hschedule hmagic
  have hlong : 8 ≤ (encode s.cfg i).length := by
    rw [encode_length hwf]
    omega
  rw [← fedWith_of_acc_eq hacc]
  calc runSteps (garbage.length + (encode s.cfg i).length) s
    _ = runSteps (encode s.cfg i).length (fedWith garbage [] (feedsOf (encode s.cfg i) ++ rest) s) :=
      runSteps_garbage hwf hacc hlong hschedule hmagic
    _ = exec i (fedWith (encode s.cfg i) [] rest (fedWith garbage [] (feedsOf (encode s.cfg i) ++ rest) s)) :=
      runSteps_encode (s := fedWith garbage [] (feedsOf (encode s.cfg i) ++ rest) s) hwf rfl hi hiwf rfl
    _ = exec i (fedWith (garbage ++ encode s.cfg i) [] rest s) := by rw [fedWith_fedWith]

end Sys2Proof.Machine
end

section
/-! The frame decoder on an aligned buffer (R143, R146 to R149): the wait, the hand-over to the dispatcher, and what a
frame says about the buffer it was cut from. -/

namespace Sys2Proof.Machine

/-- R146, R148: an accepted frame is dispatched with the accumulator cleared first. -/
theorem step_of_accepted {b : Byte} {rest : List EnvOp} {s : State} {fr : Frame} (hnext : Next (.feed b) rest s)
    (hframe : checkFrame s.cfg (s.acc ++ [b]) = .ok fr) :
    step s = dispatch fr { appended b rest s with acc := [] } := by
  rw [step_of_feed hnext, hframe]
  rfl

/-- R149: between operations the buffer lacks at least one byte of its frame, so the byte that completes the frame is the
last of its `expected_size` bytes. -/
theorem AccInv.length_of_accepted {c : Cfg} {acc : Bytes} {b : Byte} {fr : Frame} (hinv : AccInv c acc)
    (hframe : checkFrame c (acc ++ [b]) = .ok fr) : acc.length = 9 + declaredLen (acc ++ [b]) := by
  obtain ⟨-, -, -, hcomplete, -⟩ := checkFrame_ok hframe
  rw [List.length_append, List.length_singleton] at hcomplete
  rcases hinv with hshort | ⟨hlong, hincomplete, -⟩
  · omega
  · rw [declaredLen_append acc b hlong] at hcomplete ⊢
    omega

/-- R144: the checksum of an accepted frame that fills the buffer is taken over everything before its last byte. -/
theorem eq_sum8_of_accepted {c : Cfg} {acc : Bytes} {b : Byte} {fr : Frame}
    (hframe : checkFrame c (acc ++ [b]) = .ok fr) (hlength : acc.length = 9 + declaredLen (acc ++ [b])) :
    b = sum8 acc := by
  obtain ⟨-, -, -, -, hsum, -⟩ := checkFrame_ok hframe
  rw [← hlength, slice_append_left _ _ _ _ (le_refl _), slice_zero_length, byteAt_append_right _ _ _ (le_refl _),
    Nat.sub_self] at hsum
  exact hsum.symm

/-- Settles O11: the frame fills the buffer, so the buffer is the frame's bytes and its last byte their checksum. -/
theorem emittedFrameFillsTheBuffer : Obligations.EmittedFrameFillsTheBuffer := by
  intro c acc b fr _ hinv hframe
  have hlength := hinv.length_of_accepted hframe
  have hbuffer : (acc ++ [b]).length = declaredLen (acc ++ [b]) + 10 := by
    rw [List.length_append, List.length_singleton, hlength, Nat.add_comm 9]
  obtain ⟨hbytes, hpayload⟩ := accepted_bytes hframe hbuffer
  obtain ⟨-, -, hceiling, -⟩ := checkFrame_ok hframe
  exact ⟨by omega, hpayload, hpayload.trans_le hceiling, eq_sum8_of_accepted hframe hlength, hbytes⟩

/-- Settles O3: what decodes is the mux's reading of an accepted frame, and the mux names only inbound rows. -/
theorem stepRunsDecodedInstruction : Obligations.StepRunsDecodedInstruction := by
  intro s b rest i hnext hdecode
  obtain ⟨fr, hframe, rfl⟩ := decode_ok hdecode
  exact ⟨step_of_accepted hnext hframe, mux_inbound s.cfg fr⟩

/-- Settles O8: an aligned frame that is incomplete is the second of the two waits. -/
theorem feedIncompleteFrameWaits : Obligations.FeedIncompleteFrameWaits :=
  fun _ _ _ hnext hlong hmagic hceiling hincomplete => step_waits hnext (.inr ⟨hlong, hmagic, hceiling, hincomplete⟩)

/-- Settles O10: the checks of the decoder all pass, so its frame is the one dispatched. -/
theorem feedRightChecksumDispatches : Obligations.FeedRightChecksumDispatches :=
  fun _ _ _ hnext hlong hmagic hceiling hcomplete hsum =>
    step_of_accepted hnext (checkFrame_accept hlong hmagic hceiling hcomplete hsum)

end Sys2Proof.Machine
end

section
/-! Decimal text (R172) read back digit by digit. -/

namespace Sys2Proof.Machine

/-- The last byte of a text is its lowest digit. -/
theorem readNat_concat (t : Bytes) (b : Byte) : readNat (t ++ [b]) = 10 * readNat t + (b.toNat - 0x30) := by
  simp [readNat]

theorem readNat_digitByte (n : Nat) : readNat [digitByte n] = n % 10 := by
  simp [readNat, digitByte_toNat]

/-- The digits are read back by the recursion that writes them, given the fuel for all of them. -/
theorem readNat_decDigits {fuel n : Nat} (h : n ≤ fuel) : readNat (decDigits fuel n) = n := by
  induction fuel generalizing n with
  | zero =>
    obtain rfl : n = 0 := by omega
    exact readNat_digitByte 0
  | succ fuel ih =>
    rw [decDigits]
    split_ifs with hdigit
    · rw [readNat_digitByte, Nat.mod_eq_of_lt hdigit]
    · have hhigh : readNat (decDigits fuel (n / 10)) = n / 10 := ih (by omega)
      rw [readNat_concat, hhigh, digitByte_toNat, Nat.add_sub_cancel_left, Nat.div_add_mod]

theorem readNat_decNat (n : Nat) : readNat (decNat n) = n := readNat_decDigits (le_refl n)

/-- A text that does not begin with the minus sign is read as a natural number. -/
theorem readDec_of_ne_minus {t : Bytes} (h : ∀ u, t ≠ 0x2D :: u) : readDec t = readNat t := by
  unfold readDec
  split
  · exact absurd rfl (h _)
  · rfl

theorem readDec_dec (n : Int) : readDec (dec n) = n := by
  cases n with
  | ofNat n =>
    calc readDec (decNat n)
      _ = readNat (decNat n) := readDec_of_ne_minus (decNat_head_ne_minus n)
      _ = n := by rw [readNat_decNat]
  | negSucc n =>
    calc readDec (0x2D :: decNat (n + 1))
      _ = -(readNat (decNat (n + 1)) : Int) := rfl
      _ = Int.negSucc n := by rw [readNat_decNat]; rfl

theorem dec_ne_nil (n : Int) : dec n ≠ [] := by
  cases n with
  | ofNat n => exact decDigits_ne_nil n n
  | negSucc n => exact List.cons_ne_nil _ _

/-- Settles O50: the text is read back, and the laws of decimal text say what form it has. -/
theorem decimalTextReadsBack : Obligations.DecimalTextReadsBack :=
  fun n => ⟨readDec_dec n, isDecText_dec n, dec_ne_nil n⟩

end Sys2Proof.Machine
end

section
/-! The result events of one string, and of a list that does not fit (R221, R250, R251, R291). -/

namespace Sys2Proof

/-- A one-element list fits exactly if its string leaves room for the length byte (R221). -/
theorem slSize_singleton_le_iff (x : Bytes) : slSize [x] ≤ payloadMax ↔ x.length ≤ 254 := by
  simp only [slSize, payloadMax, strMax]
  omega

end Sys2Proof

namespace Sys2Proof.Machine

/-- The builder's warnings are log entries (R251). -/
theorem tx_not_mem_truncationEvents (l : List Bytes) (bytes : Bytes) : Event.tx bytes ∉ truncationEvents l := by
  simp [truncationEvents]

/-- A string that fits is not cut, so the frame comes without a warning. -/
theorem resultEvents_singleton_of_le {x : Bytes} (h : x.length ≤ 254) (c : Cfg) :
    resultEvents c [x] =
      [.tx (frameBytes c c.protoVersion c.typeRpcResult (BitVec.ofNat 8 x.length :: x))] := by
  have huncut : x.length ≤ strMax := Nat.le_succ_of_le h
  have hsilent : truncationEvents [x] = [] := by simp [truncationEvents, huncut]
  have hpayload : sl [x] = BitVec.ofNat 8 x.length :: x := by
    rw [sl_cons, sl_nil, List.append_nil, lenPrefixed_of_le x huncut]
  rw [resultEvents, if_pos ((slSize_singleton_le_iff x).2 h), hsilent, hpayload, List.nil_append]

/-- A list that does not fit is only logged (R250). -/
theorem tx_not_mem_resultEvents_of_gt {l : List Bytes} (h : payloadMax < slSize l) (c : Cfg) (bytes : Bytes) :
    Event.tx bytes ∉ resultEvents c l := by
  rw [resultEvents, if_neg (Nat.not_le.2 h), List.mem_append, not_or]
  exact ⟨tx_not_mem_truncationEvents l bytes, by simp⟩

/-- Settles O28: the URL is seven bytes longer than the `ip`, and fits up to 254 bytes. -/
theorem urlResultSentIffShortEnough : Obligations.UrlResultSentIffShortEnough := by
  intro c ip
  have hlength : (httpText ++ ip).length = 7 + ip.length := List.length_append
  rcases Nat.lt_or_ge 247 ip.length with hlong | hshort
  · have hoversize : payloadMax < slSize [httpText ++ ip] :=
      Nat.not_le.1 (mt (slSize_singleton_le_iff _).1 (by omega))
    exact .inr ⟨hlong, tx_not_mem_resultEvents_of_gt hoversize c⟩
  · have hevents := resultEvents_singleton_of_le (x := httpText ++ ip) (by omega) c
    rw [hlength] at hevents
    exact .inl ⟨hshort, hevents⟩

end Sys2Proof.Machine
end

section
/-! The frames the dispatcher drops (R160 to R162, R167). -/

namespace Sys2Proof.Machine

/-- R161, R162: an RPC frame of a foreign version or without payload is ignored. -/
theorem exec_mux_rpc_dropped {c : Cfg} {v : Byte} {p : Bytes} (h : v ≠ c.protoVersion ∨ p = []) (s : State) :
    exec (mux c ⟨v, c.typeRpc, p⟩) s = .next s := by
  by_cases hversion : v = c.protoVersion
  · obtain rfl : p = [] := h.resolve_left (not_not.2 hversion)
    rw [hversion, mux_rpc_nil]
    rfl
  · rw [mux_rpc_of_version_ne hversion]
    rfl

/-- Settles O24: the mux names a row that is ignored, and each of the six raises a condition that changes nothing. -/
theorem ignoredFramesChangeNothing : Obligations.IgnoredFramesChangeNothing := by
  refine ⟨?_, fun _ _ _ _ => ⟨rfl, rfl, rfl, rfl, rfl, rfl⟩⟩
  rintro ⟨v, t, p⟩ s h
  by_cases htype : t = s.cfg.typeRpc
  · subst t
    exact exec_mux_rpc_dropped (h.resolve_left (not_not.2 rfl)) s
  · exact exec_mux_of_type_ne_rpc htype s

/-- An operation that changes nothing completes unless a call has hung before it (U1). -/
theorem complete_of_fixed {op : State → State} {s : State} (hs : CallsReturned s) (hop : op s = s) :
    complete op s = .next s := by
  unfold complete settle
  rw [hop]
  cases hbudget : s.env.callsLeft with
  | allReturn | left n => rfl
  | overrun => exact absurd hbudget hs

/-- Arguments that fail one of the three length tests do not parse (R167). -/
theorem parseWifi_of_short {args : Bytes}
    (h : args.length < 1 ∨ args.length < 1 + (byteAt args 0).toNat + 1 ∨
      args.length < 1 + (byteAt args 0).toNat + 1 + (byteAt args (1 + (byteAt args 0).toNat)).toNat) :
    parseWifi args = none := by
  unfold parseWifi
  dsimp only
  split_ifs with hempty hssid hpassword
  · rfl
  · rfl
  · rfl
  · exact absurd h (by simp [hempty, hssid, hpassword])

theorem doSendWiFi_of_malformed {args : Bytes} (h : parseWifi args = none) (s : State) : doSendWiFi args s = s := by
  rw [doSendWiFi, h]
  rfl

/-- Settles O30: the arguments do not parse, and a malformed payload changes nothing. -/
theorem shortWifiArgumentsAreDropped : Obligations.ShortWifiArgumentsAreDropped :=
  fun _ s hs hshort => complete_of_fixed hs (doSendWiFi_of_malformed (parseWifi_of_short hshort) s)

end Sys2Proof.Machine
end

section
/-! The whole effect of the commands where every call returns (R164 to R168, R283). -/

namespace Sys2Proof.Machine

theorem derivedState_eq_provisioned_iff (st : NetStatus) : derivedState st = .provisioned ↔ st.connected = true := by
  cases h : st.connected <;> simp [derivedState, h]

section AllReturn

variable {s : State} (h : AllReturn s)
include h

/-- Re-derivation says whether the URL follows (R164, R192). -/
theorem doRequestState_of_allReturn :
    doRequestState s = { s with
      devState := derivedState s.nextStatus
      trace := s.trace ++ [.netStatus s.nextStatus, currentStateEvent s.cfg (derivedState s.nextStatus)] ++
        (if s.nextStatus.connected then resultEvents s.cfg (urlStrings s.nextStatus.ip) else [])
      env := s.env.popStatus } := by
  unfold doRequestState
  rw [rederive_of_allReturn h]
  simp only [derivedState_eq_provisioned_iff]
  split_ifs with hconnected
  · exact emitResult_of_allReturn (by simpa [AllReturn] using h) _
  · rw [List.append_nil]

/-- The scan call, then the report of its answer (R166). -/
theorem doRequestScan_of_allReturn :
    doRequestScan s = { s with
      trace := s.trace ++ [.netScan s.nextScan] ++
        (s.nextScan.flatMap fun n => resultEvents s.cfg (scanStrings n)) ++
        [.tx (frameBytes s.cfg s.cfg.protoVersion s.cfg.typeRpcResult [])]
      env := s.env.popScan } := by
  unfold doRequestScan
  rw [askScan_of_allReturn h]
  exact emitScan_of_allReturn _ (by simpa [AllReturn] using h)

/-- One status call, then the URL of its answer (R168). -/
theorem sendRedirect_of_allReturn :
    sendRedirect s = { s with
      trace := s.trace ++ [.netStatus s.nextStatus] ++ resultEvents s.cfg (urlStrings s.nextStatus.ip)
      env := s.env.popStatus } := by
  unfold sendRedirect
  rw [askStatus_of_allReturn h]
  exact emitResult_of_allReturn (by simpa [AllReturn] using h) _

/-- A connect that succeeds is followed by the redirect of the state it leaves (R168, R195). -/
theorem sendWifiAction_success_of_allReturn (w : WifiArgs) (hconnect : s.nextConnect = .success) :
    sendWifiAction w s = { s with
      devState := .provisioned
      errState := .none
      trace := s.trace ++ connectedEvents s.cfg w.ssid w.password ++
        [.netStatus (State.nextStatus { s with env := s.env.popConnect })] ++
        resultEvents s.cfg (urlStrings (State.nextStatus { s with env := s.env.popConnect }).ip)
      env := s.env.popConnect.popStatus } := by
  unfold sendWifiAction
  rw [hconnect, connectWiFi_success_of_allReturn _ _ h hconnect]
  exact sendRedirect_of_allReturn (by simpa [AllReturn] using h)

/-- A connect that fails ends the command (R168, R196). -/
theorem sendWifiAction_failure_of_allReturn (w : WifiArgs) (hconnect : s.nextConnect = .failure) :
    sendWifiAction w s = { s with
      devState := .ready
      errState := .unableToConnect
      trace := s.trace ++ unconnectedEvents s.cfg w.ssid w.password
      env := s.env.popConnect } := by
  unfold sendWifiAction
  rw [hconnect]
  exact connectWiFi_failure_of_allReturn _ _ h hconnect

/-- `SendWiFi` on arguments that parse is its action on the operands (R168, R283). -/
theorem exec_rpcSendWiFi_of_parsed {args : Bytes} {w : WifiArgs} (hparsed : parseWifi args = some w) :
    exec (.rpcSendWiFi args) s = .next (sendWifiAction w s) := by
  have hrun : doSendWiFi args s = sendWifiAction w s := by rw [doSendWiFi, hparsed]
  rw [← hrun]
  exact complete_of_allReturn h _

end AllReturn

/-- Settles O26: the command is the emission of the list. -/
theorem requestInfoSendsFourStrings : Obligations.RequestInfoSendsFourStrings :=
  fun _ s h =>
    (complete_of_allReturn h doRequestInfo).trans (congrArg _ (emitResult_of_allReturn h (infoStrings s.cfg)))

/-- Settles O27: the re-derived state is `Provisioned` exactly where the answer says connected. -/
theorem requestStateRederivesAndReports : Obligations.RequestStateRederivesAndReports :=
  fun _ _ h => (complete_of_allReturn h doRequestState).trans (congrArg _ (doRequestState_of_allReturn h))

/-- Settles O29: the scan call, then the report by induction on its answer. -/
theorem requestScanReportsEachNetwork : Obligations.RequestScanReportsEachNetwork :=
  fun _ _ h => (complete_of_allReturn h doRequestScan).trans (congrArg _ (doRequestScan_of_allReturn h))

/-- Settles O32: the connect, then the redirect. -/
theorem sendWifiSuccess : Obligations.SendWifiSuccess :=
  fun _ w _ h hparsed hconnect =>
    (exec_rpcSendWiFi_of_parsed h hparsed).trans (congrArg _ (sendWifiAction_success_of_allReturn h w hconnect))

/-- Settles O33: the connect alone. -/
theorem sendWifiFailure : Obligations.SendWifiFailure :=
  fun _ w _ h hparsed hconnect =>
    (exec_rpcSendWiFi_of_parsed h hparsed).trans (congrArg _ (sendWifiAction_failure_of_allReturn h w hconnect))

end Sys2Proof.Machine
end

section
/-! The registers: `DEVSTATE` between operations (R201), and which inbound rows write `ERRSTATE` (R198). -/

namespace Sys2Proof.Machine

/-- Settles O18: a step keeps `DEVSTATE`, or leaves it settled. -/
theorem stepKeepsDevStateSettled : Obligations.StepKeepsDevStateSettled := by
  intro s t hsettled h
  obtain hkept | hsettled' := (step_regs h).1
  · rw [DevSettled, hkept]
    exact hsettled
  · exact hsettled'

/-- Settles O22: the one other row that writes `ERRSTATE`, `TX.ERROR_STATE`, is not inbound. -/
theorem onlyErrorRulesWriteErrState : Obligations.OnlyErrorRulesWriteErrState := by
  intro i s t hinbound h hchanged
  obtain hkept | hunknown | hsendWifi | ⟨e, rfl⟩ := (exec_regs h).2
  · exact absurd hkept hchanged
  · exact .inl hunknown
  · exact .inr hsendWifi
  · cases hinbound

end Sys2Proof.Machine
end

section
/-! The whole effect of the outbound rows and of `begin`, `tick` and `statusText` where every call returns (R190 to R199,
R283). -/

namespace Sys2Proof.Machine

/-- Recording an event draws no answer (R61). -/
theorem record_nextCred (e : Event) (s : State) : (s.record e).nextCred = s.nextCred := rfl

section AllReturn

variable {s : State} (h : AllReturn s)
include h

/-- A tick is a re-derivation behind its event (R192, R197). -/
theorem doTick_of_allReturn :
    doTick s = { s with
      devState := derivedState s.nextStatus
      trace := s.trace ++ [.tick, .netStatus s.nextStatus, currentStateEvent s.cfg (derivedState s.nextStatus)]
      env := s.env.popStatus } := by
  have hrun := rederive_of_allReturn (s := s.record .tick) h
  rw [record_trace, List.append_assoc] at hrun
  exact hrun

/-- The text is that of the one status call before it (R199). -/
theorem doStatusText_of_allReturn :
    doStatusText s = { s with
      trace := s.trace ++ [.netStatus s.nextStatus, .statusText (statusLine s.nextStatus)]
      env := s.env.popStatus } := by
  rw [doStatusText, askStatus_of_allReturn h, State.record, List.append_assoc]
  rfl

/-- What `begin` does first: its event, and the call for the SSID (R193). -/
theorem askSsid_of_allReturn :
    (s.record .begun).askCred s.cfg.credKeySsid = { s with
      trace := s.trace ++ [.begun, .credGet s.cfg.credKeySsid s.nextCred]
      env := s.env.popCred } := by
  have hask := askCred_of_allReturn (s := s.record .begun) h s.cfg.credKeySsid
  rw [record_trace, List.append_assoc] at hask
  exact hask

/-- With no stored SSID that is all (R193). -/
theorem doBegin_none_of_allReturn (hcred : s.nextCred = none) :
    doBegin s = { s with
      trace := s.trace ++ [.begun, .credGet s.cfg.credKeySsid none]
      env := s.env.popCred } := by
  have hask := askSsid_of_allReturn h
  rw [hcred] at hask
  simp only [doBegin, record_nextCred, hcred, record_cfg, hask]

/-- With a stored SSID the call for the password follows, then the connect (R193). -/
theorem doBegin_some_of_allReturn {ssid : Bytes} (hssid : s.nextCred = some ssid) :
    doBegin s =
      connectWiFi ssid ((State.nextCred { s with env := s.env.popCred }).getD []) { s with
        trace := s.trace ++ [.begun, .credGet s.cfg.credKeySsid (some ssid),
          .credGet s.cfg.credKeyPassword (State.nextCred { s with env := s.env.popCred })]
        env := s.env.popCred.popCred } := by
  have hask := askSsid_of_allReturn h
  rw [hssid] at hask
  have hcalls : s.env.popCred.callsLeft = .allReturn := (popCred_callsLeft _).trans h
  simp only [doBegin, record_nextCred, hssid, record_cfg, hask]
  rw [askCred_of_allReturn hcalls, List.append_assoc]
  rfl

/-- An operation that makes calls, taken from the schedule, completes (R283, R284). -/
theorem step_of_completing {op : EnvOp} {rest : List EnvOp} (hnext : Next op rest s) (f : State → State)
    (hop : perform op = complete f) : step s = .next (f { s with env := { s.env with schedule := rest } }) := by
  rw [step_of_next hnext, hop]
  exact complete_of_allReturn (by exact h) f

end AllReturn

/-- Settles O34: the two one-byte frames and the result list, as the actions emit them. -/
theorem outboundRowsSendTheirFrames : Obligations.OutboundRowsSendTheirFrames :=
  fun d e l _ h =>
    ⟨(complete_of_allReturn h _).trans (congrArg _ (emitCurrentState_of_allReturn h d)),
      (complete_of_allReturn h _).trans (congrArg _ (setError_of_allReturn h e)),
      (complete_of_allReturn h _).trans (congrArg _ (emitResult_of_allReturn h l))⟩

/-- Settles O38: the tick, with itself taken from the schedule. -/
theorem tickBroadcastsDerivedState : Obligations.TickBroadcastsDerivedState := by
  intro s rest hnext h
  rw [← popStatus_withSchedule]
  exact (step_of_completing h hnext doTick rfl).trans (congrArg _ (doTick_of_allReturn (by exact h)))

/-- Settles O39: one status answer and its text; `statusLine` is the text of R199. -/
theorem statusTextIsPureRead : Obligations.StatusTextIsPureRead := by
  intro s rest hnext h
  rw [← popStatus_withSchedule]
  exact (step_of_completing h hnext doStatusText rfl).trans (congrArg _ (doStatusText_of_allReturn (by exact h)))

/-- Settles O36: the one credential call. -/
theorem beginWithoutCredentials : Obligations.BeginWithoutCredentials := by
  intro s rest hnext h hcred
  rw [← popCred_withSchedule]
  exact (step_of_completing h hnext doBegin rfl).trans
    (congrArg _ (doBegin_none_of_allReturn (by exact h) (by exact hcred)))

/-- Settles O37: the two credential calls, then the connect as it answers. -/
theorem beginWithCredentialsConnects : Obligations.BeginWithCredentialsConnects := by
  rintro s s1 s2 rest ssid hnext h hssid rfl rfl
  have hbegin := doBegin_some_of_allReturn (s := { s with env := { s.env with schedule := rest } }) h hssid
  simp only [popCred_withSchedule] at hbegin
  have hreturn (trace) : AllReturn { s with
      trace := trace
      env := { s.env.popCred.popCred with schedule := rest } } := by simpa [AllReturn] using h
  rw [step_of_completing h hnext doBegin rfl, hbegin]
  cases hconnect : State.nextConnect { s with env := s.env.popCred.popCred } with
  | success =>
    rw [connectWiFi_success_of_allReturn _ _ (hreturn _) hconnect, popConnect_withSchedule]
    rfl
  | failure =>
    rw [connectWiFi_failure_of_allReturn _ _ (hreturn _) hconnect, popConnect_withSchedule]
    rfl

end Sys2Proof.Machine
end

section
/-! Encoded frames fed to an empty block (R224, R225): the two logged rejections of the decoder, the whole frame, the
frame over the ceiling, and the frame with one byte changed. -/

namespace Sys2Proof

/-- Format `F` as the nine bytes of its header, the length byte last, and what follows them (R81). -/
theorem frameBytes_eq_header_append (c : Cfg) (v t : Byte) (p : Bytes) :
    frameBytes c v t p =
      (c.magic ++ [v, t] ++ [BitVec.ofNat 8 p.length]) ++ (p ++ [sum8 (frameBody c v t p)]) := by
  simp [frameBytes, frameBody]

/-- R225: a frame with one byte changed, past `MAGIC` and not the length byte, is a body of the same length with a wrong
checksum: the change is either in a summed byte or in the checksum. -/
theorem frameBytes_set_eq_body_concat {c : Cfg} (hm : c.magic.length = 6) {v t : Byte} {p : Bytes} {k : Nat} {x : Byte}
    (hk6 : 6 ≤ k) (hk8 : k ≠ 8) (hk : k < p.length + 10) (hx : x ≠ byteAt (frameBytes c v t p) k) :
    ∃ v' t' p' y, p'.length = p.length ∧ (frameBytes c v t p).set k x = frameBody c v' t' p' ++ [y] ∧
      sum8 (frameBody c v' t' p') ≠ y := by
  have hlength := frameBody_length c v t p hm
  rcases Nat.lt_or_ge k (frameBody c v t p).length with hbody | hlast
  · obtain ⟨v', t', p', hp', hset⟩ := Machine.body_set c hm v t p k x hk6 hk8
    rw [frameBytes, byteAt_append_left _ _ _ hbody] at hx
    refine ⟨v', t', p', sum8 (frameBody c v t p), hp', ?_, ?_⟩
    · rw [frameBytes, List.set_append_left _ _ hbody, hset]
    · rw [← hset]
      exact sum8_set_ne _ _ _ hbody hx
  · obtain rfl : k = (frameBody c v t p).length := by omega
    rw [frameBytes, byteAt_append_right _ _ _ hlast, Nat.sub_self, byteAt_cons_zero] at hx
    refine ⟨v, t, p, x, rfl, ?_, hx.symm⟩
    rw [frameBytes, List.set_append_right _ _ hlast, Nat.sub_self, List.set_cons_zero]

end Sys2Proof

namespace Sys2Proof.Machine

/-- R142: the step on an aligned header over the ceiling logs and empties the accumulator. -/
theorem step_of_overCeiling {b : Byte} {rest : List EnvOp} {s : State} (hnext : Next (.feed b) rest s)
    (hlong : 9 ≤ (s.acc ++ [b]).length) (hmagic : slice (s.acc ++ [b]) 0 6 = s.cfg.magic)
    (hover : 200 < declaredLen (s.acc ++ [b])) :
    step s = .next (((appended b rest s).log .lengthTooLarge).setAcc []) := by
  rw [step_of_feed hnext, checkFrame_lengthTooLarge hlong hmagic hover]
  rfl

/-- Bytes that stay below the gate are only stored (R121). -/
theorem runSteps_belowGate {bytes : Bytes} {s : State} {rest : List EnvOp} (hwf : s.cfg.wf = true) (hacc : s.acc = [])
    (hshort : bytes.length < 9) (hschedule : s.env.schedule = feedsOf bytes ++ rest) :
    runSteps bytes.length s = .next (fedWith bytes bytes rest s) := by
  have hfed := runSteps_waits bytes s rest hwf hschedule fun k hk => .inl (by simp [hacc]; omega)
  rwa [hacc, List.nil_append] at hfed

/-- The append of one more byte to bytes that were only stored. -/
theorem appended_fedWith (b : Byte) (rest rest' : List EnvOp) (bytes acc : Bytes) (s : State) :
    appended b rest (fedWith bytes acc rest' s) = fedWith (bytes ++ [b]) (acc ++ [b]) rest s := by
  simp [appended, begunWith, fedWith]

/-- R142, R145: what a logged rejection leaves of bytes fed to an empty block. -/
theorem fedWith_log_setAcc {s : State} (hacc : s.acc = []) (bytes acc : Bytes) (rest : List EnvOp) (tag : LogTag) :
    ((fedWith bytes acc rest s).log tag).setAcc [] =
      { s with
        trace := s.trace ++ bytes.map Event.feed ++ [.log tag]
        env := { s.env with schedule := rest } } := by
  rw [← block_of_acc hacc]
  rfl

/-- R146, R148: the bytes of a frame of at most 200 payload bytes, fed to an empty block, are dispatched at the last. -/
theorem runSteps_frameBytes {v t : Byte} {p : Bytes} {s : State} {rest : List EnvOp} (hwf : s.cfg.wf = true)
    (hacc : s.acc = []) (hp : p.length ≤ 200) (hschedule : s.env.schedule = feedsOf (frameBytes s.cfg v t p) ++ rest) :
    runSteps (p.length + 10) s = dispatch ⟨v, t, p⟩ (fedWith (frameBytes s.cfg v t p) [] rest s) := by
  rw [runSteps_body s v t p _ rest hwf hacc hp hschedule, if_pos rfl]
  rfl

/-- R144, R145: a frame body of at most 200 payload bytes with a wrong checksum, fed to an empty block, is rejected at the
last byte. -/
theorem runSteps_wrongChecksum {v t y : Byte} {p : Bytes} {s : State} {rest : List EnvOp} (hwf : s.cfg.wf = true)
    (hacc : s.acc = []) (hp : p.length ≤ 200) (hy : sum8 (frameBody s.cfg v t p) ≠ y)
    (hschedule : s.env.schedule = feedsOf (frameBody s.cfg v t p ++ [y]) ++ rest) :
    runSteps (p.length + 10) s = .next
      { s with
        trace := s.trace ++ (frameBody s.cfg v t p ++ [y]).map Event.feed ++ [.log .checksumMismatch]
        env := { s.env with schedule := rest } } := by
  rw [runSteps_body s v t p y rest hwf hacc hp hschedule, if_neg hy, ← fedWith_log_setAcc hacc]
  rfl

/-- R142: an aligned header over the ceiling, fed to an empty block, is rejected at its length byte, the ninth. -/
theorem runSteps_overCeiling {v t len : Byte} {s : State} {rest : List EnvOp} (hwf : s.cfg.wf = true) (hacc : s.acc = [])
    (hlen : 200 < len.toNat) (hschedule : s.env.schedule = feedsOf (s.cfg.magic ++ [v, t] ++ [len]) ++ rest) :
    runSteps 9 s = .next
      { s with
        trace := s.trace ++ (s.cfg.magic ++ [v, t] ++ [len]).map Event.feed ++ [.log .lengthTooLarge]
        env := { s.env with schedule := rest } } := by
  have hm := Cfg.wf_magic hwf
  have height : (s.cfg.magic ++ [v, t]).length = 8 := by simp [hm]
  have hmagic : slice (s.cfg.magic ++ [v, t] ++ [len]) 0 6 = s.cfg.magic := by
    rw [List.append_assoc, slice_append_left _ _ _ _ hm.ge, ← hm, slice_zero_length]
  have hover : 200 < declaredLen (s.cfg.magic ++ [v, t] ++ [len]) := by
    rwa [declaredLen, byteAt_append_right _ _ _ height.le, height]
  rw [feedsOf_append, List.append_assoc] at hschedule
  have hfed := runSteps_belowGate hwf hacc (by omega) hschedule
  rw [height] at hfed
  have hlast := step_of_overCeiling (b := len) (rest := rest)
    (s := fedWith (s.cfg.magic ++ [v, t]) (s.cfg.magic ++ [v, t]) (feedsOf [len] ++ rest) s) ⟨hwf, rfl⟩
    (by rw [List.length_append]; exact (congrArg (· + 1) height).ge) hmagic hover
  rw [runSteps_add (n := 1) hfed, runSteps_one, hlast, appended_fedWith, fedWith_log_setAcc hacc]

/-- Settles O52: up to the ceiling the last byte completes the frame; over it the ninth byte, the length byte, is
rejected. -/
theorem encodedFrameIsDispatchedOnce : Obligations.EncodedFrameIsDispatchedOnce := by
  intro v t p s rest hwf hacc hschedule
  refine ⟨fun hp => ?_, fun hover hmax => ?_⟩
  · rw [← fedWith_of_acc_eq hacc]
    exact runSteps_frameBytes hwf hacc hp hschedule
  · have hlen : (BitVec.ofNat 8 p.length).toNat = p.length := toNat_lengthByte hmax
    have hnine : (s.cfg.magic ++ [v, t] ++ [BitVec.ofNat 8 p.length]).length = 9 := by simp [Cfg.wf_magic hwf]
    rw [frameBytes_eq_header_append] at hschedule ⊢
    rw [feedsOf_append, List.append_assoc] at hschedule
    rw [List.take_left' hnine, List.drop_left' hnine]
    exact runSteps_overCeiling hwf hacc (by omega) hschedule

/-- Settles O53: the changed bytes are a frame body of the same length with a wrong checksum. -/
theorem singleByteCorruptionIsRejected : Obligations.SingleByteCorruptionIsRejected := by
  intro v t p k x s rest hwf hacc hp hk6 hk8 hk hx hschedule
  obtain ⟨v', t', p', y, hp', hset, hy⟩ := frameBytes_set_eq_body_concat (Cfg.wf_magic hwf) hk6 hk8 hk hx
  rw [hset] at hschedule ⊢
  rw [← hp'] at hp ⊢
  exact runSteps_wrongChecksum hwf hacc hp hy hschedule

end Sys2Proof.Machine
end

section
/-! The result list on `TX` and in the log, for any list of strings (R221, R250, R251). -/

namespace Sys2Proof

/-- R221: the payload size as a sum over the strings. -/
theorem slSize_eq_sum (l : List Bytes) : slSize l = (l.map fun x => 1 + min x.length 255).sum := by
  induction l with
  | nil => rfl
  | cons x l ih => rw [slSize, ih, List.map_cons, List.sum_cons, strMax]

/-- A string that is cut fills the payload by itself, and its length byte is then one too many (R251). -/
theorem payloadMax_lt_slSize_of_cut {l : List Bytes} {x : Bytes} (hmem : x ∈ l) (hcut : strMax < x.length) :
    payloadMax < slSize l := by
  have hone : 1 + min x.length 255 ≤ slSize l := by
    rw [slSize_eq_sum]
    exact List.le_sum_of_mem (List.mem_map_of_mem hmem)
  simp only [strMax, payloadMax] at hcut ⊢
  omega

end Sys2Proof

namespace Sys2Proof.Machine

theorem logs_eq_of_trace {s t : State} {evs : List Event} (h : t.trace = s.trace ++ evs) :
    t.logs = s.logs ++ evs.filterMap Event.logTag? := by
  rw [State.logs, h, List.filterMap_append, State.logs]

/-- R251: the warnings are one log entry for each string that is cut. -/
theorem truncationEvents_eq_replicate (l : List Bytes) :
    truncationEvents l = List.replicate (l.countP fun x => decide (255 < x.length)) (.log .stringTruncated) := by
  rw [truncationEvents, List.map_const', List.countP_eq_length_filter, strMax]

/-- R221: the frame of a result is among its events exactly if the list fits. -/
theorem resultEvents_txBytes (c : Cfg) (l : List Bytes) :
    (resultEvents c l).filterMap Event.txBytes? =
      if slSize l ≤ payloadMax then [frameBytes c c.protoVersion c.typeRpcResult (sl l)] else [] := by
  have hsilent : (truncationEvents l).filterMap Event.txBytes? = [] := by
    rw [truncationEvents_eq_replicate, List.filterMap_replicate_of_none rfl]
  rw [resultEvents, List.filterMap_append, hsilent, List.nil_append]
  split_ifs <;> rfl

/-- R250, R251: the log entries of a result, the warnings and then the one of a list that does not fit. -/
theorem resultEvents_logTags (c : Cfg) (l : List Bytes) :
    (resultEvents c l).filterMap Event.logTag? =
      List.replicate (l.countP fun x => decide (255 < x.length)) .stringTruncated ++
        if slSize l ≤ payloadMax then [] else [.encoderOversize] := by
  rw [resultEvents, List.filterMap_append, truncationEvents_eq_replicate,
    List.filterMap_replicate_of_some (show Event.logTag? (.log .stringTruncated) = some .stringTruncated from rfl)]
  split_ifs <;> rfl

/-- Settles O49: whatever calls hang, a result that completes has left the result events; a string that was cut makes
the list too long. -/
theorem resultSentIffItFits : Obligations.ResultSentIffItFits := by
  intro l s t hexec
  obtain ⟨rfl, -⟩ := complete_next hexec
  have htrace := emitResult_trace l s
  have hsent := txFrames_eq_of_trace htrace
  rw [resultEvents_txBytes] at hsent
  have hlogged := logs_eq_of_trace htrace
  rw [resultEvents_logTags, ← List.append_assoc] at hlogged
  rw [← slSize_eq_sum]
  refine ⟨hsent, hlogged, ?_⟩
  rintro ⟨x, hmem, hcut⟩
  have hoversize : ¬ slSize l ≤ payloadMax := Nat.not_le.2 (payloadMax_lt_slSize_of_cut hmem hcut)
  rw [hsent, if_neg hoversize, List.append_nil]

end Sys2Proof.Machine
end

section
/-! The checksum as a plain sum of naturals (R83), and its independence of the order of the bytes (R230). -/

namespace Sys2Proof

theorem sum8_toNat (s : Bytes) : (sum8 s).toNat = (s.map BitVec.toNat).sum % 256 := by
  rw [sum8, BitVec.toNat_ofNat]

/-- R230: the sum of naturals under `sum8` does not depend on the order. -/
theorem sum8_eq_of_perm {s t : Bytes} (h : s.Perm t) : sum8 s = sum8 t := by
  have hsum : (s.map BitVec.toNat).sum = (t.map BitVec.toNat).sum := (h.map BitVec.toNat).sum_eq
  rw [sum8, sum8, hsum]

end Sys2Proof

namespace Sys2Proof.Machine

/-- Settles O51: the plain sum by definition, and equal sums for permuted bytes. -/
theorem checksumIsPlainSum : Obligations.ChecksumIsPlainSum :=
  ⟨sum8_toNat, fun _ _ => sum8_eq_of_perm⟩

end Sys2Proof.Machine
end

section
/-! The conditions raised by `feed` (R241 to R243): the whole step of each. -/

namespace Sys2Proof.Machine

/-- R144, R145: the step on a complete aligned frame with a wrong checksum logs and empties the accumulator. -/
theorem step_of_wrongChecksum {b : Byte} {rest : List EnvOp} {s : State} (hnext : Next (.feed b) rest s)
    (hlong : 9 ≤ (s.acc ++ [b]).length) (hmagic : slice (s.acc ++ [b]) 0 6 = s.cfg.magic)
    (hceiling : declaredLen (s.acc ++ [b]) ≤ 200)
    (hcomplete : 9 + declaredLen (s.acc ++ [b]) + 1 ≤ (s.acc ++ [b]).length)
    (hsum : sum8 (slice (s.acc ++ [b]) 0 (9 + declaredLen (s.acc ++ [b])))
      ≠ byteAt (s.acc ++ [b]) (9 + declaredLen (s.acc ++ [b]))) :
    step s = .next (((appended b rest s).log .checksumMismatch).setAcc []) := by
  rw [step_of_feed hnext, checkFrame_checksumMismatch hlong hmagic hceiling hcomplete hsum]
  rfl

/-- A log entry and a new accumulator on a byte just stored: the trace gains the byte's event and the entry. -/
theorem appended_log_setAcc (b : Byte) (rest : List EnvOp) (s : State) (tag : LogTag) (acc : Bytes) :
    ((appended b rest s).log tag).setAcc acc =
      { appended b rest s with acc := acc, trace := s.trace ++ [.feed b, .log tag] } := by
  have htrace : s.trace ++ [.feed b, .log tag] = s.trace ++ [.feed b] ++ [.log tag] := by
    rw [List.append_assoc, List.singleton_append]
  rw [htrace]
  rfl

/-- Settles O6: the verdict is a framing error, which drops one byte and does nothing else. -/
theorem feedMisalignedDropsFirstByte : Obligations.FeedMisalignedDropsFirstByte :=
  fun _ _ _ => step_of_misaligned

/-- Settles O7: the verdict is a length too large. -/
theorem feedOverCeilingClearsAndLogs : Obligations.FeedOverCeilingClearsAndLogs := by
  intro s b rest hnext hlong hmagic hover
  rw [step_of_overCeiling hnext hlong hmagic hover, appended_log_setAcc]

/-- Settles O9: the verdict is a checksum mismatch. -/
theorem feedWrongChecksumClearsAndLogs : Obligations.FeedWrongChecksumClearsAndLogs := by
  intro s b rest hnext hlong hmagic hceiling hcomplete hsum
  rw [step_of_wrongChecksum hnext hlong hmagic hceiling hcomplete hsum, appended_log_setAcc]

end Sys2Proof.Machine
end

section
/-! The error register and the frames of the conditions (R247, R249, R252, R255), whatever calls hang. -/

namespace Sys2Proof.Machine

theorem log_txFrames (tag : LogTag) (s : State) : (s.log tag).txFrames = s.txFrames :=
  (txFrames_eq_of_trace (log_trace s tag)).trans (List.append_nil _)

/-- A payload of one byte always fits, so its frame is sent (R221). -/
theorem emit_singleton_txFrames (type x : Byte) (s : State) :
    (emit type [x] s).txFrames = s.txFrames ++ [frameBytes s.cfg s.cfg.protoVersion type [x]] := by
  have hfits : [x].length ≤ payloadMax := by simp [payloadMax]
  rw [emit_of_le _ _ _ hfits]
  exact txFrames_eq_of_trace (transmit_trace s _)

theorem setError_txFrames (e : ErrState) (s : State) : (setError e s).txFrames =
    s.txFrames ++ [frameBytes s.cfg s.cfg.protoVersion s.cfg.typeErrorState [e.code s.cfg]] :=
  emit_singleton_txFrames s.cfg.typeErrorState (e.code s.cfg) (s.setErr e)

theorem broadcast_txFrames (s : State) : (broadcast s).txFrames =
    s.txFrames ++ [frameBytes s.cfg s.cfg.protoVersion s.cfg.typeCurrentState [s.devState.code s.cfg]] :=
  emit_singleton_txFrames s.cfg.typeCurrentState (s.devState.code s.cfg) s

/-- R249: the two frames of a failed connect are those of its broadcast and of its error. -/
theorem raise_connectionFailed_txFrames (s : State) : (raise .connectionFailed s).txFrames =
    s.txFrames ++ [frameBytes s.cfg s.cfg.protoVersion s.cfg.typeCurrentState [s.cfg.stReady],
      frameBytes s.cfg s.cfg.protoVersion s.cfg.typeErrorState [s.cfg.errUnableToConnect]] := by
  have hcfg : (broadcast (s.setDev .ready)).cfg = s.cfg := (extends_broadcast (s.setDev .ready)).cfg
  have herror := setError_txFrames .unableToConnect (broadcast (s.setDev .ready))
  rw [hcfg, broadcast_txFrames, List.append_assoc] at herror
  exact herror

/-- R255: the other nine conditions move the accumulator, log, or do nothing. -/
theorem raise_txFrames_of_silent {x : Condition} (hunknown : x ≠ .unknownCommand) (hfailed : x ≠ .connectionFailed)
    (s : State) : (raise x s).txFrames = s.txFrames := by
  cases x with
  | framingError | nonRpcFrame | versionMismatch | emptyRpc | malformedPayload => rfl
  | lengthTooLarge | checksumMismatch | encoderOversize | stringTruncated => exact log_txFrames _ s
  | unknownCommand => exact absurd rfl hunknown
  | connectionFailed => exact absurd rfl hfailed

/-- Settles O23: the nine silent conditions, the error frame of `UnknownCommand`, and the two frames of
`ConnectionFailed`. -/
theorem onlyTwoConditionsSendFrames : Obligations.OnlyTwoConditionsSendFrames :=
  ⟨fun _ s hunknown hfailed => raise_txFrames_of_silent hunknown hfailed s, setError_txFrames .unknownRpc,
    raise_connectionFailed_txFrames⟩

/-- Settles O19: a step keeps `ERRSTATE`, or writes one of the three values. -/
theorem stepKeepsErrStateProduced : Obligations.StepKeepsErrStateProduced := by
  intro s t hproduced h
  obtain hkept | hproduced' := (step_regs h).2
  · rw [ErrProduced, hkept]
    exact hproduced
  · exact hproduced'

/-- Settles O25: the row sets the error, and the command mux names it for every id but the four. -/
theorem unknownCommandReportsUnknownRpc : Obligations.UnknownCommandReportsUnknownRpc := by
  refine ⟨fun _ _ _ h => ?_, fun c cmd args hcmd => ?_⟩
  · exact (complete_of_allReturn h (raise .unknownCommand)).trans (congrArg _ (setError_of_allReturn h .unknownRpc))
  · exact (mux_rpc_cons c cmd args).trans (muxCommand_unknown cmd args hcmd)

end Sys2Proof.Machine
end

section
/-! When an instruction or an operation completes (U1, R283): each changes nothing, or is an action that completes
unless a call of it hangs. -/

namespace Sys2Proof.Machine

/-- The action leaves a budget in which every call returns as it was (R283). -/
def KeepsReturning (op : State → State) : Prop := ∀ s, AllReturn s → AllReturn (op s)

/-- The action makes a call in every state: where the next call never returns, it hangs (U1). -/
def AlwaysCalls (op : State → State) : Prop := ∀ s, s.env.callsLeft = .left 0 → (op s).env.callsLeft = .overrun

/-- U1: an action that always makes a call stops where the next call never returns. -/
theorem AlwaysCalls.complete_fault {op : State → State} (hop : AlwaysCalls op) {s : State}
    (h : s.env.callsLeft = .left 0) : complete op s = .fault .collaboratorNeverReturns :=
  complete_of_hang (by simp [h]) (hop s h)

theorem KeepsReturning.complete_callsReturned {op : State → State} (hop : KeepsReturning op) {s t : State}
    (h : complete op s = .next t) : CallsReturned t :=
  Machine.complete_callsReturned h ((complete_next h).1 ▸ hop s)

/-! ### The actions that always make a call -/

theorem call_overrun {s : State} (h : s.env.callsLeft = .left 0) (e : Event) :
    (s.call e).env.callsLeft = .overrun := by
  rw [call_env, h]
  rfl

theorem alwaysCalls_askStatus : AlwaysCalls State.askStatus :=
  fun s h => call_overrun (s := { s with env := s.env.popStatus }) ((popStatus_callsLeft s.env).trans h) _

theorem alwaysCalls_askScan : AlwaysCalls State.askScan :=
  fun s h => call_overrun (s := { s with env := s.env.popScan }) ((popScan_callsLeft s.env).trans h) _

theorem alwaysCalls_askCred (key : Bytes) : AlwaysCalls (State.askCred key) :=
  fun s h => call_overrun (s := { s with env := s.env.popCred }) ((popCred_callsLeft s.env).trans h) _

/-- A payload of one byte always fits, so it is written (R221). -/
theorem alwaysCalls_emit_singleton (type x : Byte) : AlwaysCalls (emit type [x]) := by
  intro s h
  rw [emit_of_le _ _ _ (by simp [payloadMax])]
  exact call_overrun h _

theorem alwaysCalls_emitCurrentState (d : DevState) : AlwaysCalls (emitCurrentState d) :=
  fun s h => alwaysCalls_emit_singleton _ _ s h

theorem alwaysCalls_setError (e : ErrState) : AlwaysCalls (setError e) :=
  fun s h => alwaysCalls_emit_singleton _ _ (s.setErr e) h

theorem alwaysCalls_rederive : AlwaysCalls rederiveAndBroadcast :=
  fun s h => (extends_broadcast _).hangs (alwaysCalls_askStatus s h)

theorem alwaysCalls_doRequestState : AlwaysCalls doRequestState := by
  intro s h
  have hrederive := alwaysCalls_rederive s h
  unfold doRequestState
  dsimp only
  split
  · exact (extends_emitResult _ _ (resultShape_url _ _)).hangs hrederive
  · exact hrederive

theorem alwaysCalls_doRequestScan : AlwaysCalls doRequestScan :=
  fun s h => (extends_emitScan _ _).hangs (alwaysCalls_askScan s h)

/-- `begin` asks for the SSID in any case (R193). -/
theorem alwaysCalls_doBegin : AlwaysCalls doBegin := by
  intro s h
  have hask := alwaysCalls_askCred s.cfg.credKeySsid (s.record .begun) h
  unfold doBegin
  dsimp only
  split
  · exact hask
  · exact ((extends_askCred _ _).trans (extends_connectWiFi _ _ _)).hangs hask

theorem alwaysCalls_doTick : AlwaysCalls doTick := fun s h => alwaysCalls_rederive (s.record .tick) h

theorem alwaysCalls_doStatusText : AlwaysCalls doStatusText := fun s h => alwaysCalls_askStatus s h

/-! ### The instructions -/

theorem keepsReturning_setError (e : ErrState) : KeepsReturning (setError e) := by
  intro s h
  rw [setError_of_allReturn h]
  exact h

theorem keepsReturning_emitResult (l : List Bytes) : KeepsReturning (emitResult l) := by
  intro s h
  rw [emitResult_of_allReturn h]
  exact h

/-- An instruction is ignored, or is an action run to its end (R160 to R169, R190 to R192). -/
theorem exec_eq_next_or_complete (i : Instr) :
    exec i = .next ∨ ∃ op, exec i = complete op ∧ KeepsReturning op := by
  cases i with
  | rxCurrentState | rxErrorState | rxRpcResult | rpcEmpty | rpcForeignVersion | rxUnassignedType => exact .inl rfl
  | rpcSendWiFi args => exact .inr ⟨_, rfl, fun s => (extends_doSendWiFi args s).returns⟩
  | rpcRequestState => exact .inr ⟨_, rfl, fun s => (extends_doRequestState s).returns⟩
  | rpcRequestInfo => exact .inr ⟨_, rfl, fun s => (extends_doRequestInfo s).returns⟩
  | rpcRequestScan => exact .inr ⟨_, rfl, fun s => (extends_doRequestScan s).returns⟩
  | rpcUnknown => exact .inr ⟨_, rfl, keepsReturning_setError .unknownRpc⟩
  | txCurrentState d => exact .inr ⟨_, rfl, fun s => (extends_emitCurrentState d s).returns⟩
  | txErrorState e => exact .inr ⟨_, rfl, keepsReturning_setError e⟩
  | txRpcResult l => exact .inr ⟨_, rfl, keepsReturning_emitResult l⟩

/-- U1: an instruction completes or stops because a call never returns; it is never refused. -/
theorem exec_next_or_fault (i : Instr) (s : State) :
    (∃ t, exec i s = .next t) ∨ exec i s = .fault .collaboratorNeverReturns := by
  obtain hexec | ⟨op, hexec, -⟩ := exec_eq_next_or_complete i <;> rw [hexec]
  · exact .inl ⟨s, rfl⟩
  · exact (complete_cases op s).imp_left fun h => ⟨op s, h⟩

/-- R283: where every call returns, an instruction completes and every call still returns. -/
theorem exec_of_allReturn (i : Instr) {s : State} (h : AllReturn s) : ∃ t, exec i s = .next t ∧ AllReturn t := by
  obtain hexec | ⟨op, hexec, hop⟩ := exec_eq_next_or_complete i <;> rw [hexec]
  · exact ⟨s, rfl, h⟩
  · exact ⟨op s, complete_of_allReturn h op, hop s h⟩

theorem exec_callsReturned {i : Instr} {s t : State} (hs : CallsReturned s) (h : exec i s = .next t) :
    CallsReturned t := by
  obtain hexec | ⟨op, hexec, hop⟩ := exec_eq_next_or_complete i <;> rw [hexec] at h
  · injection h with h
    exact h ▸ hs
  · exact hop.complete_callsReturned h

/-- Settles O35: an ignored row changes nothing, any other is an action, and the five named always make a call. -/
theorem instructionsStopOnlyWhenACallHangs : Obligations.InstructionsStopOnlyWhenACallHangs :=
  ⟨exec_next_or_fault, fun i _ => exec_of_allReturn i, fun _ _ d e _ h =>
    ⟨alwaysCalls_doRequestState.complete_fault h, alwaysCalls_doRequestScan.complete_fault h,
      (alwaysCalls_setError .unknownRpc).complete_fault h, (alwaysCalls_emitCurrentState d).complete_fault h,
      (alwaysCalls_setError e).complete_fault h⟩⟩

/-! ### The operations -/

/-- `begin`, `tick` and `statusText` are actions run to their end, and each makes a call in every case (R193, R197,
R199). -/
theorem perform_eq_complete {op : EnvOp} (hop : op = .begin ∨ op = .tick ∨ op = .statusText) :
    ∃ f, perform op = complete f ∧ KeepsReturning f ∧ AlwaysCalls f := by
  rcases hop with rfl | rfl | rfl
  · exact ⟨doBegin, rfl, fun s => (extends_doBegin s).returns, alwaysCalls_doBegin⟩
  · exact ⟨doTick, rfl, fun s => (extends_doTick s).returns, alwaysCalls_doTick⟩
  · exact ⟨doStatusText, rfl, fun s => (extends_doStatusText s).returns, alwaysCalls_doStatusText⟩

/-- Settles O59: the step is the action with the operation taken from the schedule, which leaves the budget alone. -/
theorem operationsStopOnlyWhenACallHangs : Obligations.OperationsStopOnlyWhenACallHangs := by
  intro s op rest hnext hop
  obtain ⟨f, hperform, hkeeps, hcalls⟩ := perform_eq_complete hop
  rw [step_of_next hnext, hperform]
  refine ⟨(complete_cases f _).imp_left fun h => ⟨_, h⟩, fun h => ?_, fun h => hcalls.complete_fault h⟩
  exact ⟨_, complete_of_allReturn (by exact h) f, hkeeps _ h⟩

end Sys2Proof.Machine
end

section
/-! The invariant of the machine as a whole: no step leaves a call that has hung (U1), and every step keeps `Inv`. -/

namespace Sys2Proof.Machine

/-- A verdict of `feed` makes calls only in the instruction it dispatches. -/
theorem feedVerdict_callsReturned {v : Except Reject Frame} {s t : State} (hs : CallsReturned s)
    (h : feedVerdict v s = .next t) : CallsReturned t := by
  rcases feedVerdict_next h with ⟨-, -, -, henv, -⟩ | ⟨fr, -, hdispatch⟩
  · rw [CallsReturned, henv]
    exact hs
  · have hcleared : CallsReturned (s.setAcc []) := hs
    exact exec_callsReturned hcleared hdispatch

theorem perform_callsReturned {op : EnvOp} {s t : State} (hs : CallsReturned s) (h : perform op s = .next t) :
    CallsReturned t := by
  have hcomplete (hop : op = .begin ∨ op = .tick ∨ op = .statusText) : CallsReturned t := by
    obtain ⟨f, hperform, hkeeps, -⟩ := perform_eq_complete hop
    exact hkeeps.complete_callsReturned (hperform ▸ h)
  cases op with
  | reset =>
    injection h with h
    exact h ▸ hs
  | begin => exact hcomplete (.inl rfl)
  | feed b => exact feedVerdict_callsReturned (s := (s.record (.feed b)).setAcc (s.acc ++ [b])) hs h
  | tick => exact hcomplete (.inr (.inl rfl))
  | statusText => exact hcomplete (.inr (.inr rfl))

theorem step_callsReturned {s t : State} (hs : CallsReturned s) (h : step s = .next t) : CallsReturned t := by
  obtain ⟨-, ⟨-, rfl⟩ | ⟨op, rest, -, hperform⟩⟩ := step_next h
  · exact hs
  · exact perform_callsReturned (s := { s with env := { s.env with schedule := rest } }) hs hperform

/-- Settles O57: each of the five parts of the invariant is kept by every step. -/
theorem stepKeepsInvariant : Obligations.StepKeepsInvariant := by
  refine ⟨fun s t => step_callsReturned, ?_⟩
  rintro s t ⟨hacc, hdev, herr, hcalls, htx⟩ h
  exact ⟨step_accInv hacc h, stepKeepsDevStateSettled s t hdev h, stepKeepsErrStateProduced s t herr h,
    step_callsReturned hcalls h, stepKeepsOutboundStreamWellFormed s t htx h⟩

end Sys2Proof.Machine
end

section
/-! The operations one after another where every call returns (R280 to R289): `reset`, ticks over a partial frame, the
schedule of the control loop, and a false lock. -/

namespace Sys2Proof.Machine

/-- Settles O1: the step is `doReset`, whose fields are the reset values. -/
theorem resetOperationRestoresBlock : Obligations.ResetOperationRestoresBlock :=
  fun _ _ hnext => ⟨_, step_of_next hnext, rfl, rfl, rfl, rfl, rfl, rfl, rfl, rfl, rfl⟩

/-- R197, R289: what a tick leaves of the block, the budget and the schedule, and the one frame it sends. -/
theorem step_tick_of_allReturn {s : State} {rest : List EnvOp} (hnext : Next .tick rest s) (h : AllReturn s) :
    ∃ t, step s = .next t ∧ t.acc = s.acc ∧ t.errState = s.errState ∧ t.cfg = s.cfg ∧ AllReturn t ∧
      t.env.schedule = rest ∧ t.txFrames.length = s.txFrames.length + 1 := by
  refine ⟨_, tickBroadcastsDerivedState s rest hnext h, rfl, rfl, rfl, (popStatus_callsLeft _).trans h, rfl, ?_⟩
  rw [State.txFrames, List.filterMap_append, List.length_append]
  rfl

/-- Settles O40, by induction on the number of ticks. -/
theorem partialFrameSurvivesTicks : Obligations.PartialFrameSurvivesTicks := by
  intro n
  induction n with
  | zero => exact fun s rest _ _ hschedule => ⟨s, rfl, rfl, rfl, hschedule, rfl⟩
  | succ n ih =>
    intro s rest hwf hreturn hschedule
    obtain ⟨t, hstep, hacc, herr, hcfg, hreturn', hschedule', hframes⟩ :=
      step_tick_of_allReturn (rest := List.replicate n .tick ++ rest) ⟨hwf, by exact hschedule⟩ hreturn
    obtain ⟨u, hrun, hacc', herr', hrest, hframes'⟩ := ih t rest (hcfg ▸ hwf) hreturn' hschedule'
    exact ⟨u, (runSteps_succ n hstep).trans hrun, hacc'.trans hacc, herr'.trans herr, hrest, by omega⟩

/-! ### The arrivals of a run -/

/-- The event by which an operation enters the trace (R64); `statusText` enters it by no arrival. -/
def EnvOp.arrivals : EnvOp → List Event
  | .reset => [.reset]
  | .begin => [.begun]
  | .feed b => [.feed b]
  | .tick => [.tick]
  | .statusText => []

/-- The state with the arrival of an operation recorded and the accumulator as `a`. -/
def State.arrived (op : EnvOp) (a : Bytes) (s : State) : State :=
  { s with trace := s.trace ++ op.arrivals, acc := a }

/-- A verdict of `feed` moves the accumulator, and else stays within `Extends`. -/
theorem feedVerdict_extends {v : Except Reject Frame} {s t : State} (h : feedVerdict v s = .next t) :
    ∃ a, Extends (s.setAcc a) t := by
  cases v with
  | ok fr => exact ⟨[], exec_extends (mux_inbound _ fr) h⟩
  | error r =>
    cases r <;> injection h with h <;> subst h
    case gate | incomplete => exact ⟨s.acc, Extends.refl s⟩
    case framingError => exact ⟨s.acc.drop 1, Extends.refl _⟩
    case lengthTooLarge | checksumMismatch => exact ⟨[], extends_log _ (s.setAcc [])⟩

/-- An operation but `reset` records its arrival first, and then no other. -/
theorem perform_extends {op : EnvOp} {s t : State} (hop : op ≠ .reset) (h : perform op s = .next t) :
    ∃ a, Extends (s.arrived op a) t := by
  cases op with
  | reset => exact absurd rfl hop
  | begin => exact ⟨s.acc, begin_extends h⟩
  | feed b => exact feedVerdict_extends (s := (s.record (.feed b)).setAcc (s.acc ++ [b])) h
  | tick => exact ⟨s.acc, tick_extends h⟩
  | statusText =>
    have hsame : s.arrived .statusText s.acc = s := by simp [State.arrived, EnvOp.arrivals]
    exact ⟨s.acc, hsame.symm ▸ statusText_extends h⟩

/-- R283: where every call returns, every operation completes. -/
theorem perform_of_allReturn (op : EnvOp) {s : State} (h : AllReturn s) : ∃ t, perform op s = .next t := by
  cases op with
  | reset => exact ⟨_, rfl⟩
  | begin | tick | statusText => exact ⟨_, complete_of_allReturn h _⟩
  | feed b =>
    have hverdict (v : Except Reject Frame) (u : State) (hu : AllReturn u) : ∃ t, feedVerdict v u = .next t := by
      cases v with
      | ok fr => exact (exec_of_allReturn _ (s := u.setAcc []) hu).imp fun _ => And.left
      | error r => cases r <;> exact ⟨_, rfl⟩
    exact hverdict _ _ h

theorem Extends.trace_arrivals {s t : State} (h : Extends s t) :
    ∃ evs, t.trace = s.trace ++ evs ∧ evs.filter Event.isArrival = [] := by
  obtain ⟨evs, htrace, -⟩ := h.trace
  have harrivals := h.arrivals
  rw [htrace, List.filter_append, List.append_right_eq_self] at harrivals
  exact ⟨evs, htrace, harrivals⟩

/-- R284: one operation but `reset`, where every call returns: the next one is due, and the trace has gained the arrival
and behind it no other. -/
theorem step_arrivals {op : EnvOp} {rest : List EnvOp} {s : State} (hop : op ≠ .reset) (hnext : Next op rest s)
    (h : AllReturn s) :
    ∃ t evs, step s = .next t ∧ t.cfg = s.cfg ∧ AllReturn t ∧ t.env.schedule = rest ∧
      t.trace = s.trace ++ op.arrivals ++ evs ∧ evs.filter Event.isArrival = [] := by
  obtain ⟨t, hperform⟩ := perform_of_allReturn op (s := { s with env := { s.env with schedule := rest } }) h
  obtain ⟨a, hextends⟩ := perform_extends hop hperform
  obtain ⟨evs, htrace, hsilent⟩ := hextends.trace_arrivals
  exact ⟨t, evs, (step_of_next hnext).trans hperform, hextends.cfg, hextends.returns h, hextends.schedule, htrace,
    hsilent⟩

theorem arrivals_filter_isArrival (op : EnvOp) : op.arrivals.filter Event.isArrival = op.arrivals := by
  cases op <;> rfl

/-- R284: a schedule without `reset` runs to its end where every call returns, and the arrivals of its run are those of
its operations in order. -/
theorem runSteps_arrivals {ops : List EnvOp} (hops : .reset ∉ ops) {s : State} (hwf : s.cfg.wf = true)
    (h : AllReturn s) (hschedule : s.env.schedule = ops) :
    ∃ t evs, runSteps ops.length s = .next t ∧ t.env.schedule = [] ∧ t.trace = s.trace ++ evs ∧
      evs.filter Event.isArrival = ops.flatMap EnvOp.arrivals := by
  induction ops generalizing s with
  | nil => exact ⟨s, [], rfl, hschedule, (List.append_nil _).symm, rfl⟩
  | cons op ops ih =>
    rw [List.mem_cons, not_or] at hops
    obtain ⟨t, evs, hstep, hcfg, hreturn, hschedule', htrace, hsilent⟩ :=
      step_arrivals (Ne.symm hops.1) ⟨hwf, hschedule⟩ h
    obtain ⟨u, evs', hrun, hdone, htrace', harrivals⟩ := ih hops.2 (hcfg ▸ hwf) hreturn hschedule'
    refine ⟨u, op.arrivals ++ evs ++ evs', (runSteps_succ _ hstep).trans hrun, hdone, ?_, ?_⟩
    · rw [htrace', htrace]
      simp only [List.append_assoc]
    · rw [List.filter_append, List.filter_append, hsilent, harrivals, arrivals_filter_isArrival, List.append_nil,
        List.flatMap_cons]

theorem reset_not_mem_loop (passes : List (Bytes × Bool)) :
    EnvOp.reset ∉ passes.flatMap fun pass => loopPass pass.1 pass.2 := by
  intro hmem
  obtain ⟨⟨bytes, due⟩, -, hpass⟩ := List.mem_flatMap.1 hmem
  cases due <;> simp [loopPass] at hpass

/-- R261: the operations of the passes arrive as the passes say. -/
theorem loop_flatMap_arrivals (passes : List (Bytes × Bool)) :
    (passes.flatMap fun pass => loopPass pass.1 pass.2).flatMap EnvOp.arrivals = passEvents passes := by
  have hbytes (bytes : Bytes) : (bytes.map EnvOp.feed).flatMap EnvOp.arrivals = bytes.map Event.feed := by
    rw [List.flatMap_map, List.map_eq_flatMap]
    rfl
  rw [List.flatMap_assoc, passEvents]
  congr 1
  funext ⟨bytes, due⟩
  rw [loopPass, List.flatMap_append, hbytes]
  cases due <;> rfl

/-- The passes of the loop bring no `Begin` (R282). -/
theorem begun_not_mem_passEvents (passes : List (Bytes × Bool)) : Event.begun ∉ passEvents passes := by
  intro hmem
  obtain ⟨⟨bytes, due⟩, -, hpass⟩ := List.mem_flatMap.1 hmem
  cases due <;> simp at hpass

/-- Settles O41: `begin` is the first step, and the passes are the rest of the run. -/
theorem bootScheduleBeginsOnceAndFirst : Obligations.BootScheduleBeginsOnceAndFirst := by
  intro passes s hwf h hschedule
  obtain ⟨t, evs, hstep, hcfg, hreturn, hschedule', htrace, hsilent⟩ :=
    step_arrivals (by simp) ⟨hwf, hschedule⟩ h
  obtain ⟨u, evs', hrun, hdone, htrace', harrivals⟩ :=
    runSteps_arrivals (reset_not_mem_loop passes) (hcfg ▸ hwf) hreturn hschedule'
  have hall : (evs ++ evs').filter Event.isArrival = passEvents passes := by
    rw [List.filter_append, hsilent, harrivals, loop_flatMap_arrivals, List.nil_append]
  refine ⟨u, evs ++ evs', (runSteps_succ _ hstep).trans hrun, hdone, ?_, fun hmem => ?_, hall⟩
  · rw [htrace', htrace]
    simp only [List.append_assoc]
    rfl
  · exact begun_not_mem_passEvents passes (hall ▸ List.mem_filter.2 ⟨hmem, rfl⟩)

/-! ### A false lock -/

/-- R143 to R146: the byte that completes the declared length empties the accumulator, whether the checksum is right or
wrong. -/
theorem runSteps_body_acc {v t x : Byte} {p : Bytes} {s u : State} {rest : List EnvOp} (hwf : s.cfg.wf = true)
    (hacc : s.acc = []) (hp : p.length ≤ 200)
    (hschedule : s.env.schedule = feedsOf (frameBody s.cfg v t p ++ [x]) ++ rest)
    (h : runSteps (p.length + 10) s = .next u) : u.acc = [] := by
  rw [runSteps_body s v t p x rest hwf hacc hp hschedule] at h
  split_ifs at h with hsum
  · exact (exec_framed h).acc
  · injection h with h
    exact h ▸ rfl

/-- Settles O56: up to the declared length the decoder waits; the bytes with one more are a frame body and its
checksum byte. -/
theorem falseLockSwallowsTheDeclaredLength : Obligations.FalseLockSwallowsTheDeclaredLength := by
  intro v t len bytes s rest hwf hacc hlen hschedule
  refine ⟨fun hshort => runSteps_header s v t len bytes rest hwf hacc hlen hshort hschedule, fun hfull u hrun => ?_⟩
  obtain ⟨p, x, rfl⟩ := List.eq_nil_or_concat' bytes |>.resolve_left (by rintro rfl; simp at hfull)
  have hp : p.length = len.toNat := by simpa using hfull
  have hbody : s.cfg.magic ++ [v, t, len] ++ (p ++ [x]) = frameBody s.cfg v t p ++ [x] := by
    rw [frameBody, hp, BitVec.ofNat_toNat, BitVec.setWidth_eq, ← List.append_assoc]
  rw [hbody] at hschedule
  have hsteps : 9 + (p ++ [x]).length = p.length + 10 := by
    rw [List.length_append, List.length_singleton]
    omega
  exact runSteps_body_acc hwf hacc (hp.trans_le hlen) hschedule (hsteps ▸ hrun)

end Sys2Proof.Machine
end
